-- ==== Sys2Proof/Word.lean ====
section
/-!
DEFINITION. The word types of the Supplyframe 4-bit processor (00_scope.md R4, R5): bit 0 is the least
significant bit of every value.
-/
namespace Sys2Proof

/-- A register, a data cell or a literal N: 4 bits (R4 DATA_WIDTH). -/
abbrev Nibble := BitVec 4

/-- A data memory address, page in bits 7 to 4 and offset in bits 3 to 0 (R4 DATA_ADDR_WIDTH, R50). -/
abbrev Addr := BitVec 8

/-- A program memory address (R4 PC_WIDTH, R27). -/
abbrev ProgAddr := BitVec 12

/-- An instruction word (R4 INSTR_WIDTH, R80). -/
abbrev InstrWord := BitVec 12

/-- A register number: `i` names Ri (10_state.md R21). -/
abbrev Reg := BitVec 4

end Sys2Proof
end

