-- ==== Sys2Proof/Syntax.lean ====
section
/-!
DEFINITION. The instruction set: one constructor for each of the 31 rows of spec/opcode_table.json
(30_encoding.md R84), with the operands of the row's format (R82, R83). Two operands are held decoded, as the
number they stand for and not as their bits: the count of EXR (R88) and the count of SKIP (R89); and two 2-bit
selectors are held as the name they stand for: the register selector G of the bit instructions (R91) and the
condition F of SKIP (R90).
-/
namespace Sys2Proof

/-- The condition of SKIP: `z|nz|c|nc` (R90, R99). -/
inductive SkipCond where
  | c
  | nc
  | z
  | nz
deriving DecidableEq, Repr

/-- The register selector RG of the bit instructions, `R0 | R1 | R2 | RS` (R91, R99). -/
inductive BitSel where
  | r0
  | r1
  | r2
  | rs
deriving DecidableEq, Repr

inductive Instr where
  /-- ADD RX,RY (R111) -/
  | addXY (x y : Reg)
  /-- ADC RX,RY (R112) -/
  | adcXY (x y : Reg)
  /-- SUB RX,RY (R113) -/
  | subXY (x y : Reg)
  /-- SBB RX,RY (R114) -/
  | sbbXY (x y : Reg)
  /-- OR RX,RY (R115) -/
  | orXY (x y : Reg)
  /-- AND RX,RY (R116) -/
  | andXY (x y : Reg)
  /-- XOR RX,RY (R117) -/
  | xorXY (x y : Reg)
  /-- MOV RX,RY (R131) -/
  | movXY (x y : Reg)
  /-- MOV RX,N (R132) -/
  | movXN (x : Reg) (n : Nibble)
  /-- MOV [XY],R0 (R133) -/
  | storeXY (x y : Reg)
  /-- MOV R0,[XY] (R134) -/
  | loadXY (x y : Reg)
  /-- MOV [NN],R0 (R135) -/
  | storeNN (nn : Addr)
  /-- MOV R0,[NN] (R136) -/
  | loadNN (nn : Addr)
  /-- MOV PC,NN: loads PCM and PCH (R137) -/
  | movPC (nn : BitVec 8)
  /-- JR NN, `nn` the two's complement offset (R87, R151) -/
  | jr (nn : BitVec 8)
  /-- CP R0,N (R171) -/
  | cpN (n : Nibble)
  /-- ADD R0,N (R172) -/
  | addN (n : Nibble)
  /-- INC RY (R173) -/
  | inc (y : Reg)
  /-- DEC RY (R174) -/
  | dec (y : Reg)
  /-- DSZ RY (R175) -/
  | dsz (y : Reg)
  /-- OR R0,N (R176) -/
  | orN (n : Nibble)
  /-- AND R0,N (R177) -/
  | andN (n : Nibble)
  /-- XOR R0,N (R178) -/
  | xorN (n : Nibble)
  /-- EXR N, `count` the number of pairs exchanged, 1 to 16 (R88, R191) -/
  | exr (count : Nat)
  /-- BIT RG,M (R193) -/
  | bit (g : BitSel) (m : BitVec 2)
  /-- BSET RG,M (R194) -/
  | bset (g : BitSel) (m : BitVec 2)
  /-- BCLR RG,M (R195) -/
  | bclr (g : BitSel) (m : BitVec 2)
  /-- BTG RG,M (R196) -/
  | btg (g : BitSel) (m : BitVec 2)
  /-- RRC RY (R197) -/
  | rrc (y : Reg)
  /-- RET R0,N (R211) -/
  | ret (n : Nibble)
  /-- SKIP F,M, `count` the number of words skipped, 1 to 4 (R89, R212) -/
  | skip (f : SkipCond) (count : Nat)
deriving DecidableEq, Repr

end Sys2Proof
end

