-- ==== Sys2Proof/WellFormed.lean ====
section
/-!
DEFINITION. Which terms of `Instr` are instructions of the machine. Every operand but the two counts has a type
that admits exactly the values of its field (30_encoding.md R95: every field value of every format is
meaningful), so the counts are all there is to check.
-/
namespace Sys2Proof

/-- EXR exchanges 1 to 16 pairs (R88) and SKIP skips 1 to 4 words (R89). -/
def Instr.wellFormed : Instr → Bool
  | .addXY _ _ => true
  | .adcXY _ _ => true
  | .subXY _ _ => true
  | .sbbXY _ _ => true
  | .orXY _ _ => true
  | .andXY _ _ => true
  | .xorXY _ _ => true
  | .movXY _ _ => true
  | .movXN _ _ => true
  | .storeXY _ _ => true
  | .loadXY _ _ => true
  | .storeNN _ => true
  | .loadNN _ => true
  | .movPC _ => true
  | .jr _ => true
  | .cpN _ => true
  | .addN _ => true
  | .inc _ => true
  | .dec _ => true
  | .dsz _ => true
  | .orN _ => true
  | .andN _ => true
  | .xorN _ => true
  | .exr count => decide (1 ≤ count) && decide (count ≤ 16)
  | .bit _ _ => true
  | .bset _ _ => true
  | .bclr _ _ => true
  | .btg _ _ => true
  | .rrc _ => true
  | .ret _ => true
  | .skip _ count => decide (1 ≤ count) && decide (count ≤ 4)

end Sys2Proof
end

