-- ==== Sys2Proof/Decode.lean ====
section
/-!
DEFINITION. The decoder, total on all 4096 words (30_encoding.md R94, R95), the encoder written from the same
patterns (R84), and the reading of a table word given as a number. An instruction is one 12-bit word and one
fetch returns it whole (R80, 20_memory.md R51), so there is no byte order.
-/
namespace Sys2Proof

/-! ## Fields (R83) -/

/-- The major opcode, w[11:8]. -/
def fieldOp (w : InstrWord) : BitVec 4 := w.extractLsb' 8 4

/-- X, and the minor opcode under major opcode 0000: w[7:4]. -/
def fieldX (w : InstrWord) : BitVec 4 := w.extractLsb' 4 4

/-- Y, and the literal N: w[3:0]. -/
def fieldY (w : InstrWord) : BitVec 4 := w.extractLsb' 0 4

/-- NN, w[7:0]. -/
def fieldNN (w : InstrWord) : BitVec 8 := w.extractLsb' 0 8

/-- G of the bit instructions and F of SKIP, w[3:2]. -/
def fieldG (w : InstrWord) : BitVec 2 := w.extractLsb' 2 2

/-- M, w[1:0]. -/
def fieldM (w : InstrWord) : BitVec 2 := w.extractLsb' 0 2

/-! ## Operand codes -/

/-- R91: G = 0, 1, 2 select R0, R1, R2 and G = 3 the port. -/
def bitSelOfCode (g : BitVec 2) : BitSel :=
  match g with
  | 0#2 => .r0
  | 1#2 => .r1
  | 2#2 => .r2
  | _ => .rs

/-- The code of a register selector (R91). -/
def bitSelCode : BitSel → BitVec 2
  | .r0 => 0#2
  | .r1 => 1#2
  | .r2 => 2#2
  | .rs => 3#2

/-- The parameter SKIP_COND_MAP (R90, D8; log 16): 01 = nc is fixed by a worked encoding, the other three rows are
the spec's choice. -/
def condOfCode (f : BitVec 2) : SkipCond :=
  match f with
  | 0#2 => .c
  | 1#2 => .nc
  | 2#2 => .z
  | _ => .nz

/-- The code of a condition (R90). -/
def condCode : SkipCond → BitVec 2
  | .c => 0#2
  | .nc => 1#2
  | .z => 2#2
  | .nz => 3#2

/-- The count of EXR: 16 if N = 0, else N (R88). -/
def exrCountOfCode (n : BitVec 4) : Nat := if n = 0#4 then 16 else n.toNat

/-- The count of SKIP: 4 if M = 0, else M (R89). -/
def skipCountOfCode (m : BitVec 2) : Nat := if m = 0#2 then 4 else m.toNat

/-! ## Decoding (R94) -/

/-- The sixteen instructions under major opcode 0000, rows 16 to 31 of R84. The last arm is minor opcode 1111: no
encoding is left over (R95). -/
def decodeMinor (w : InstrWord) : Instr :=
  match fieldX w with
  | 0x0#4 => .cpN (fieldY w)
  | 0x1#4 => .addN (fieldY w)
  | 0x2#4 => .inc (fieldY w)
  | 0x3#4 => .dec (fieldY w)
  | 0x4#4 => .dsz (fieldY w)
  | 0x5#4 => .orN (fieldY w)
  | 0x6#4 => .andN (fieldY w)
  | 0x7#4 => .xorN (fieldY w)
  | 0x8#4 => .exr (exrCountOfCode (fieldY w))
  | 0x9#4 => .bit (bitSelOfCode (fieldG w)) (fieldM w)
  | 0xA#4 => .bset (bitSelOfCode (fieldG w)) (fieldM w)
  | 0xB#4 => .bclr (bitSelOfCode (fieldG w)) (fieldM w)
  | 0xC#4 => .btg (bitSelOfCode (fieldG w)) (fieldM w)
  | 0xD#4 => .rrc (fieldY w)
  | 0xE#4 => .ret (fieldY w)
  | _ => .skip (condOfCode (fieldG w)) (skipCountOfCode (fieldM w))

/-- The instruction a word stands for: rows 1 to 15 of R84 by the major opcode, rows 16 to 31 where it is 0000. The
last arm is major opcode 0000: no encoding is left over (R95). -/
def decode (w : InstrWord) : Instr :=
  match fieldOp w with
  | 0x1#4 => .addXY (fieldX w) (fieldY w)
  | 0x2#4 => .adcXY (fieldX w) (fieldY w)
  | 0x3#4 => .subXY (fieldX w) (fieldY w)
  | 0x4#4 => .sbbXY (fieldX w) (fieldY w)
  | 0x5#4 => .orXY (fieldX w) (fieldY w)
  | 0x6#4 => .andXY (fieldX w) (fieldY w)
  | 0x7#4 => .xorXY (fieldX w) (fieldY w)
  | 0x8#4 => .movXY (fieldX w) (fieldY w)
  | 0x9#4 => .movXN (fieldX w) (fieldY w)
  | 0xA#4 => .storeXY (fieldX w) (fieldY w)
  | 0xB#4 => .loadXY (fieldX w) (fieldY w)
  | 0xC#4 => .storeNN (fieldNN w)
  | 0xD#4 => .loadNN (fieldNN w)
  | 0xE#4 => .movPC (fieldNN w)
  | 0xF#4 => .jr (fieldNN w)
  | _ => decodeMinor w

/-! ## Encoding -/

/-- The word of an instruction, each arm one row of R84. An EXR count of 16 and a SKIP count of 4 have code 0
(R88, R89). -/
def encode : Instr → InstrWord
  | .addXY x y => 0x1#4 ++ x ++ y
  | .adcXY x y => 0x2#4 ++ x ++ y
  | .subXY x y => 0x3#4 ++ x ++ y
  | .sbbXY x y => 0x4#4 ++ x ++ y
  | .orXY x y => 0x5#4 ++ x ++ y
  | .andXY x y => 0x6#4 ++ x ++ y
  | .xorXY x y => 0x7#4 ++ x ++ y
  | .movXY x y => 0x8#4 ++ x ++ y
  | .movXN x n => 0x9#4 ++ x ++ n
  | .storeXY x y => 0xA#4 ++ x ++ y
  | .loadXY x y => 0xB#4 ++ x ++ y
  | .storeNN nn => 0xC#4 ++ nn
  | .loadNN nn => 0xD#4 ++ nn
  | .movPC nn => 0xE#4 ++ nn
  | .jr nn => 0xF#4 ++ nn
  | .cpN n => 0x00#8 ++ n
  | .addN n => 0x01#8 ++ n
  | .inc y => 0x02#8 ++ y
  | .dec y => 0x03#8 ++ y
  | .dsz y => 0x04#8 ++ y
  | .orN n => 0x05#8 ++ n
  | .andN n => 0x06#8 ++ n
  | .xorN n => 0x07#8 ++ n
  | .exr count => 0x08#8 ++ BitVec.ofNat 4 count
  | .bit g m => 0x09#8 ++ bitSelCode g ++ m
  | .bset g m => 0x0A#8 ++ bitSelCode g ++ m
  | .bclr g m => 0x0B#8 ++ bitSelCode g ++ m
  | .btg g m => 0x0C#8 ++ bitSelCode g ++ m
  | .rrc y => 0x0D#8 ++ y
  | .ret n => 0x0E#8 ++ n
  | .skip f count => 0x0F#8 ++ condCode f ++ BitVec.ofNat 2 count

/-! ## Words given as numbers -/

/-- Why a number is not decoded. -/
inductive DecodeError where
  /-- It needs more than 12 bits: no word of program memory holds it (R80). Safe: nothing runs. -/
  | widerThanAWord
deriving DecidableEq, Repr

/-- The instruction of a word given as a number: total, refusing by name what does not fit 12 bits. -/
def decodeNat (w : Nat) : Except DecodeError Instr :=
  if w < 4096 then .ok (decode (BitVec.ofNat 12 w)) else .error .widerThanAWord

/-- The instruction read from an instruction whose bits are `w`. Every instruction is one 12-bit word, so bits that
`nbits` leaves out are the zero bits of `w` itself, and a bit above the twelfth belongs to no word (log 24). -/
def decodeTableWord (_nbits w : Nat) : Option Instr :=
  match decodeNat w with
  | .ok i => some i
  | .error _ => none

end Sys2Proof
end

