-- ==== Sys2Proof/Config.lean ====
section
/-!
DEFINITION. What is fixed for one machine and what the spec leaves free. The free values are opaque constants: no
proof can learn anything of them, so what is proved holds whatever they are.
-/
namespace Sys2Proof.Config

/-- RESET_PC, the entry point after reset: the spec's open parameter at its default (70_reset_and_hazards.md R260,
D18; log 4). -/
def resetPc : ProgAddr := 0x000#12

/-- `draw4()`: the value the environment supplies at its `k`-th draw, under no law (00_scope.md R10,
20_memory.md R60; log 7). -/
opaque draw : Nat → Nibble

/-- The launch content of a data cell that nothing has written: the launch parameter of 20_memory.md R63 and
70_reset_and_hazards.md R263 (log 5). -/
opaque launchCell : Addr → Nibble

/-- The program image given to the run, at every address of which State lists no word: the launch parameter PM of
20_memory.md R71 and 93_implementation_defined.md U15, total on the 4096 addresses (log 6). -/
opaque launchWord : ProgAddr → InstrWord

end Sys2Proof.Config
end

