-- ==== Sys2Proof/Machine/State.lean ====
section
/-!
DEFINITION. The machine's state as plain data (10_state.md R20), the reasons a step stops, and the state after
reset (70_reset_and_hazards.md R260 to R264).
-/
namespace Sys2Proof.Machine

/-- A memory of `w`-bit cells: (address, content) pairs, addresses strictly rising (`Memory.wf`). An address not
listed holds what the launch parameter gives it (log 5, 6, 22). -/
abbrev Memory (w : Nat) := List (Nat × BitVec w)

/-- The three flags (10_state.md R29). -/
structure Flags where
  /-- carry, and inverse borrow -/
  c : Bool
  /-- zero -/
  z : Bool
  /-- signed overflow -/
  v : Bool
deriving DecidableEq, Repr

/-- The architectural state (R20). The registers, WRFLAGS, the return stack and the alternate register set are
cells of `mem` (R22, R32 to R34). -/
structure State where
  /-- data memory DM, 256 cells of 4 bits (R20, R50) -/
  mem : Memory 4
  /-- program memory PM, 4096 words of 12 bits (R20, R71): the words listed here, and the launch image's at every other
  address (`State.fetch`) -/
  prog : Memory 12
  /-- program counter (R27) -/
  pc : ProgAddr
  /-- stack pointer, the number of return addresses on the stack (R31) -/
  sp : BitVec 3
  /-- C, Z, V (R29) -/
  flags : Flags
  /-- the values written to the OUT location, oldest first (R59; log 9) -/
  out : List Nibble
  /-- the MODEL's own field: how many values the environment has supplied (R60; log 7) -/
  draws : Nat
deriving DecidableEq, Repr

/-- Why the machine faults. It has no constructor: the processor raises no exception, every address holds a word, and
the treatment `fault` is never used (60_exceptions.md R230; 93_implementation_defined.md, treatments). -/
inductive Fault
deriving DecidableEq, Repr

/-- Why an instruction has no successor state. But for `notModelled` each is a `refuse(...)` of 60_exceptions.md R242;
all are safe, since nothing can be proved of a program that reaches one. -/
inductive Refusal where
  /-- Raised by an arm of `exec` whose instruction has no meaning yet; no arm does. Safe. -/
  | notModelled (mnemonic : String)
  /-- Raised by ADD, ADC, SUB, SBB, OR, AND, XOR RX,RY, DSZ, RRC, EXR, MOV [XY],R0 and MOV [NN],R0 where they would
  write cell 0x0C (JSR) or 0x0D (PCL): the spec leaves open whether that transfers control (R156; log 11). Safe. -/
  | triggerOther
  /-- Raised by a call with SP = 5: MOV RX,RY, MOV RX,N, INC, DEC with destination R12 (R155; log 12). Safe. -/
  | stackOverflow
  /-- Raised by RET with SP = 0 (R155; log 12). Safe. -/
  | stackUnderflow
  /-- Raised by MOV R0,[XY] and MOV R0,[NN] with the address 0xF3 (R58; log 14). Safe. -/
  | wrflagsRead
  /-- Raised by MOV [XY],R0, MOV R0,[XY], MOV [NN],R0, MOV R0,[NN] with an address in page 15 other than 0xF3, 0xFA,
  0xFB (R62; log 15). Safe. -/
  | sfrNotInSource
deriving DecidableEq, Repr

/-- What a step or a meaning answers. -/
abbrev Result := Host.Outcome State Fault Refusal

/-- The cells of `State.reset` that are registers: R0 to R15, and on page 15 WRFLAGS and the other locations of OUT
and IN. The spec gives them no reset value; the model names 0 (DESIGN CHOICE, unsafe; log 1, 2). -/
def resetRegisters : Memory 4 :=
  [(0x00, 0#4), (0x01, 0#4), (0x02, 0#4), (0x03, 0#4), (0x04, 0#4), (0x05, 0#4), (0x06, 0#4), (0x07, 0#4),
   (0x08, 0#4), (0x09, 0#4), (0x0A, 0#4), (0x0B, 0#4), (0x0C, 0#4), (0x0D, 0#4), (0x0E, 0#4), (0x0F, 0#4),
   (0xF3, 0#4), (0xFA, 0#4), (0xFB, 0#4)]

/-- The machine after reset: PC at RESET_PC (R260), SP 0 (R261), flags of the model's choice (R262; DESIGN CHOICE,
unsafe; log 3), no data cell but the registers given a value (R263), no output event (R264), and program memory
wholly the image given to the run, no word of which the model names (R264, R244; log 6). -/
def State.reset : State where
  mem := resetRegisters
  prog := []
  pc := Config.resetPc
  sp := 0#3
  flags := { c := false, z := false, v := false }
  out := []
  draws := 0

end Sys2Proof.Machine
end

