-- ==== Sys2Proof/Machine/Memory.lean ====
section
/-!
DEFINITION. The two operations on a memory and its canonical form. A memory lists what has been written, addresses
strictly rising; an address not listed reads as a launch parameter of which nothing is known, so a write never removes
an entry (log 22).
-/
namespace Sys2Proof.Machine

/-- The content of address `a`, if anything has written it. -/
def Memory.read? {w : Nat} : Memory w → Nat → Option (BitVec w)
  | [], _ => none
  | (k, v) :: rest, a => if k = a then some v else Memory.read? rest a

/-- `m` with `v` at address `a`, every other address as before. -/
def Memory.write {w : Nat} : Memory w → Nat → BitVec w → Memory w
  | [], a, v => [(a, v)]
  | (k, u) :: rest, a, v =>
    if a < k then (a, v) :: (k, u) :: rest
    else if a = k then (a, v) :: rest
    else (k, u) :: Memory.write rest a v

/-- The canonical form: addresses strictly rising and below `size`. -/
def Memory.wf {w : Nat} (size : Nat) : Memory w → Bool
  | [] => true
  | (k, _) :: rest => decide (k < size) && rest.all (fun cell => decide (k < cell.1)) && Memory.wf size rest

end Sys2Proof.Machine
end

