-- ==== Sys2Proof/Machine/Ops.lean ====
section
/-!
DEFINITION. The named operations over the state: the state's updates, data memory with its special cells
(20_memory.md R57 to R63), registers (00_scope.md R7, R9), the fetch (R11), and the program jump, the subroutine
call and the return (42_jr_jump_call.md R152 to R155, 45_ret_skip.md R211). The processor has no exception, so there
is no exception entry and no return from one (60_exceptions.md R230 to R234).
-/
namespace Sys2Proof.Machine

/-! ## Updates of one field -/

def State.setPc (s : State) (p : ProgAddr) : State := { s with pc := p }

def State.setSp (s : State) (p : BitVec 3) : State := { s with sp := p }

def State.setFlags (s : State) (f : Flags) : State := { s with flags := f }

/-- The plain store `DM[a] <- v`, with no effect but the cell's. -/
def State.setCell (s : State) (a : Addr) (v : Nibble) : State := { s with mem := s.mem.write a.toNat v }

/-- An output event (R59). -/
def State.emit (s : State) (v : Nibble) : State := { s with out := s.out ++ [v] }

/-- The environment has supplied one more value (R60). -/
def State.drawn (s : State) : State := { s with draws := s.draws + 1 }

/-! ## Data memory -/

/-- The stored content of a data cell: what was last written to it, and before that its launch content
(20_memory.md R63; log 5). -/
def State.cell (s : State) (a : Addr) : Nibble := (s.mem.read? a.toNat).getD (Config.launchCell a)

/-- WRFLAGS_ADDR (R4). -/
def wrflagsAddr : Addr := 0xF3#8

/-- IOPOS, bit 1 of WRFLAGS (10_state.md R33). -/
def State.iopos (s : State) : Bool := (s.cell wrflagsAddr).getLsbD 1

/-- The OUT location (20_memory.md R59). -/
def State.outAddr (s : State) : Addr := if s.iopos then 0xFA#8 else 0x0A#8

/-- The IN location (20_memory.md R60). -/
def State.inAddr (s : State) : Addr := if s.iopos then 0xFB#8 else 0x0B#8

/-- The cells that read as a draw and whose content after a write is unspecified: the IN location (R60), and 0xFB
whether or not it is the IN location (R61). -/
def State.isInput (s : State) (a : Addr) : Bool := a == s.inAddr || a == 0xFB#8

/-- `MemRead(a, 1)` (00_scope.md R8): the value and the state after the read. Only a read of an input cell changes
the state, and only the environment's count (R55, R60). -/
def State.memRead (s : State) (a : Addr) : Nibble × State :=
  if s.isInput a then (Config.draw s.draws, s.drawn) else (s.cell a, s)

/-- `MemWrite(a, 1, v)` (00_scope.md R8): an input cell receives a draw in place of `v` (R60; log 8), the OUT location
receives `v` and emits it (R59), every other cell receives `v` (R63). -/
def State.memWrite (s : State) (a : Addr) (v : Nibble) : State :=
  if s.isInput a then (s.setCell a (Config.draw s.draws)).drawn
  else if a = s.outAddr then (s.setCell a v).emit v
  else s.setCell a v

/-- The cells of page 15 the spec describes: WRFLAGS and the port cells (20_memory.md R62). -/
def isUndocumented (a : Addr) : Bool :=
  a.extractLsb' 4 4 == 0xF#4 && !(a == wrflagsAddr || a == 0xFA#8 || a == 0xFB#8)

/-- The cells JSR and PCL (10_state.md R21). -/
def isTriggerCell (a : Addr) : Bool := a == 0x0C#8 || a == 0x0D#8

/-- Why an explicit read of address `a` by a memory move is refused, if it is (20_memory.md R58, R62). -/
def explicitReadRefusal (a : Addr) : Option Refusal :=
  if a = wrflagsAddr then some .wrflagsRead
  else if isUndocumented a then some .sfrNotInSource
  else none

/-- Why an explicit write of address `a` by a memory move is refused, if it is (20_memory.md R57, R62). -/
def explicitWriteRefusal (a : Addr) : Option Refusal :=
  if isTriggerCell a then some .triggerOther
  else if isUndocumented a then some .sfrNotInSource
  else none

/-- An explicit read by a memory move (R133 to R136), the continuation given the value and the state. -/
def State.explicitRead (s : State) (a : Addr) (k : Nibble → State → Result) : Result :=
  match explicitReadRefusal a with
  | some r => .refused r
  | none => k (s.memRead a).1 (s.memRead a).2

/-- An explicit write by a memory move (R133, R135). -/
def State.explicitWrite (s : State) (a : Addr) (v : Nibble) : Result :=
  match explicitWriteRefusal a with
  | some r => .refused r
  | none => .next (s.memWrite a v)

/-! ## Registers (10_state.md R22: register Ri is the cell DM[i]) -/

def regAddr (r : Reg) : Addr := r.setWidth 8

/-- `x[i]` as a source (00_scope.md R7): the value and the state after the read. -/
def State.readReg (s : State) (r : Reg) : Nibble × State := s.memRead (regAddr r)

/-- `x[i] <- v`, the plain register write (00_scope.md R7, R9). -/
def State.writeReg (s : State) (r : Reg) (v : Nibble) : State := s.memWrite (regAddr r) v

/-- R12 and R13, which an instruction without the call and jump note may not write (42_jr_jump_call.md R156). -/
def isTriggerReg (r : Reg) : Bool := r == 12#4 || r == 13#4

/-! ## Jump, call and return -/

/-- STACK_DEPTH (R4, R155; log 12). -/
def stackDepth : BitVec 3 := 5#3

/-- The lowest cell of stack entry `k`, 0x10 + 3k (10_state.md R32). -/
def stackCell (k : BitVec 3) : Addr := 0x10#8 + 3#8 * k.setWidth 8

/-- The target PCH : PCM : v (42_jr_jump_call.md R152). -/
def State.target (s : State) (v : Nibble) : ProgAddr := s.cell 0x0F#8 ++ s.cell 0x0E#8 ++ v

/-- `Jump(v)` (R153). -/
def State.jump (s : State) (v : Nibble) : State := s.setPc (s.target v)

/-- The three cells of the entry numbered SP receive the address `ra`, low nibble first, and SP counts it (R154). -/
def State.push (s : State) (ra : ProgAddr) : State :=
  (((s.memWrite (stackCell s.sp) (ra.extractLsb' 0 4)).memWrite
      (stackCell s.sp + 1#8) (ra.extractLsb' 4 4)).memWrite
      (stackCell s.sp + 2#8) (ra.extractLsb' 8 4)).setSp (s.sp + 1#3)

/-- `Call(v)` (R154), the bound checked by `State.writeTrigger`. -/
def State.call (s : State) (v : Nibble) : State := (s.push s.pc).setPc (s.target v)

/-- The address held by stack entry `k`, its high nibble in the highest cell (R32). -/
def State.stackEntry (s : State) (k : BitVec 3) : ProgAddr :=
  s.cell (stackCell k + 2#8) ++ s.cell (stackCell k + 1#8) ++ s.cell (stackCell k)

/-- The pop of RET: SP decremented, PC loaded from the entry it then names (45_ret_skip.md R211). -/
def State.pop (s : State) : State := (s.setSp (s.sp - 1#3)).setPc (s.stackEntry (s.sp - 1#3))

/-- `xt[i] <- v`, the register write with the call and jump trigger (00_scope.md R9). A call with the stack full is
refused before anything is written (42_jr_jump_call.md R155). -/
def State.writeTrigger (s : State) (r : Reg) (v : Nibble) : Result :=
  if r = 13#4 then .next ((s.writeReg r v).jump v)
  else if r = 12#4 then
    if stackDepth ≤ s.sp then .refused .stackOverflow else .next ((s.writeReg r v).call v)
  else .next (s.writeReg r v)

/-! ## The fetch (00_scope.md R11) -/

/-- `Fetch(PC)`: the word the image holds at PC. Every address holds one (20_memory.md R71, 30_encoding.md R95; log 6). -/
def State.fetch (s : State) : InstrWord := (s.prog.read? s.pc.toNat).getD (Config.launchWord s.pc)

/-- The state an instruction executes in: PC at the following word, on the ring of 4096 words (R11, R27). -/
def State.advance (s : State) : State := s.setPc (s.pc + 1#12)

end Sys2Proof.Machine
end

