-- ==== Sys2Proof/Machine/Flags.lean ====
section
/-!
DEFINITION. Every result and flag computation of the spec: the 4-bit adder (40_alu_rr.md R110) and, for each
instruction that computes, the result and the flags it leaves, given the flags before. A flag the spec does not name
for an instruction keeps its value (00_scope.md R13).
-/
namespace Sys2Proof.Machine

/-- `AddC(a, b, cin)` (R110): the 4-bit result, the carry out of bit 3 and the signed overflow. -/
def addC (a b : Nibble) (cin : Bool) : Nibble × Bool × Bool :=
  let t := a.toNat + b.toNat + cin.toNat
  let r := BitVec.ofNat 4 t
  (r, decide (15 < t), a.msb == b.msb && r.msb != a.msb)

/-- Result and flags of an addition that writes C, Z and V. -/
def addFlags (a b : Nibble) (cin : Bool) : Nibble × Flags :=
  let t := addC a b cin
  (t.1, { c := t.2.1, z := t.1 == 0#4, v := t.2.2 })

/-- ADD RX,RY (R111). -/
def aluAdd (a b : Nibble) (_ : Flags) : Nibble × Flags := addFlags a b false

/-- ADC RX,RY (R112). -/
def aluAdc (a b : Nibble) (f : Flags) : Nibble × Flags := addFlags a b f.c

/-- SUB RX,RY (R113). -/
def aluSub (a b : Nibble) (_ : Flags) : Nibble × Flags := addFlags a (~~~b) true

/-- SBB RX,RY: the incoming borrow is the inverse of C (R114). -/
def aluSbb (a b : Nibble) (f : Flags) : Nibble × Flags := addFlags a (~~~b) f.c

/-- OR RX,RY (R115). -/
def aluOr (a b : Nibble) (f : Flags) : Nibble × Flags := (a ||| b, { f with z := (a ||| b) == 0#4 })

/-- AND RX,RY (R116). -/
def aluAnd (a b : Nibble) (f : Flags) : Nibble × Flags := (a &&& b, { f with z := (a &&& b) == 0#4 })

/-- XOR RX,RY (R117). -/
def aluXor (a b : Nibble) (f : Flags) : Nibble × Flags := (a ^^^ b, { f with z := (a ^^^ b) == 0#4 })

/-- CP R0,N: the flags of the subtraction R0 - N, its result discarded (43_r0_literal_unary.md R171). -/
def cpFlags (a n : Nibble) (f : Flags) : Flags :=
  let t := addC a (~~~n) true
  { f with c := t.2.1, z := t.1 == 0#4 }

/-- ADD R0,N: V not written (R172). -/
def aluAddN (a n : Nibble) (f : Flags) : Nibble × Flags :=
  let t := addC a n false
  (t.1, { f with c := t.2.1, z := t.1 == 0#4 })

/-- INC RY: C and Z both tell a result of 0000 (R173). -/
def aluInc (a : Nibble) (f : Flags) : Nibble × Flags :=
  (a + 1#4, { f with c := (a + 1#4) == 0#4, z := (a + 1#4) == 0#4 })

/-- DEC RY: C is the inverse borrow (R174). -/
def aluDec (a : Nibble) (f : Flags) : Nibble × Flags :=
  (a - 1#4, { f with c := (a - 1#4) != 15#4, z := (a - 1#4) == 0#4 })

/-- OR R0,N: C set (R176). -/
def aluOrN (a n : Nibble) (f : Flags) : Nibble × Flags :=
  (a ||| n, { f with c := true, z := (a ||| n) == 0#4 })

/-- AND R0,N: C reset (R177). -/
def aluAndN (a n : Nibble) (f : Flags) : Nibble × Flags :=
  (a &&& n, { f with c := false, z := (a &&& n) == 0#4 })

/-- XOR R0,N: C complemented (R178). -/
def aluXorN (a n : Nibble) (f : Flags) : Nibble × Flags :=
  (a ^^^ n, { f with c := !f.c, z := (a ^^^ n) == 0#4 })

/-- BIT RG,M: Z is the complement of the tested bit (44_exr_bit_rrc.md R193). -/
def bitFlags (v : Nibble) (m : BitVec 2) (f : Flags) : Flags := { f with z := !v.getLsbD m.toNat }

/-- RRC RY: the old C enters bit 3, bit 0 leaves into C (R197). -/
def aluRrc (v : Nibble) (f : Flags) : Nibble × Flags :=
  let r := BitVec.ofBool f.c ++ v.extractLsb' 1 3
  (r, { f with c := v.getLsbD 0, z := r == 0#4 })

/-- Whether the condition of SKIP holds (30_encoding.md R90). -/
def condHolds (f : SkipCond) (fl : Flags) : Bool :=
  match f with
  | .c => fl.c
  | .nc => !fl.c
  | .z => fl.z
  | .nz => !fl.z

end Sys2Proof.Machine
end

