-- ==== Sys2Proof/Machine/Operands.lean ====
section
/-!
DEFINITION. The operand forms (30_encoding.md R85 to R93) and the shapes instructions of one family share. All
operands are read before anything is written (40_alu_rr.md R118); RX is read before RY, each read of the IN location
a draw of its own (R118; log 10).
-/
namespace Sys2Proof.Machine

/-- R0, the implied register of the literal forms and the memory moves (R21). -/
def r0 : Reg := 0#4

/-- The operand `[XY]`: the address x[X] : x[Y] and the state after both registers are read (R93). -/
def State.pairAddr (s : State) (x y : Reg) : Addr × State :=
  let a := s.readReg x
  let b := a.2.readReg y
  (a.1 ++ b.1, b.2)

/-- The cell BIT tests (R91, 44_exr_bit_rrc.md R192): with G = 3 the IN location. -/
def State.bitCellRead (s : State) : BitSel → Addr
  | .r0 => 0x00#8
  | .r1 => 0x01#8
  | .r2 => 0x02#8
  | .rs => s.inAddr

/-- The cell BSET, BCLR and BTG change (R91, R192): with G = 3 the OUT location. -/
def State.bitCellWrite (s : State) : BitSel → Addr
  | .r0 => 0x00#8
  | .r1 => 0x01#8
  | .r2 => 0x02#8
  | .rs => s.outAddr

/-- `1 << M` (R194 to R196). -/
def bitMask (m : BitVec 2) : Nibble := 1#4 <<< m.toNat

/-- The offset of JR, sign-extended to 12 bits (R87). -/
def jrOffset (nn : BitVec 8) : ProgAddr := nn.signExtend 12

/-- A two-register instruction that writes RX and the flags: R12 and R13 are refused as RX (40_alu_rr.md R118,
R119). -/
def execRR (alu : Nibble → Nibble → Flags → Nibble × Flags) (x y : Reg) (s : State) : Result :=
  if isTriggerReg x then .refused .triggerOther
  else
    let a := s.readReg x
    let b := a.2.readReg y
    let t := alu a.1 b.1 s.flags
    .next ((b.2.writeReg x t.1).setFlags t.2)

/-- A literal instruction on R0 that writes R0 and the flags (43_r0_literal_unary.md R170). -/
def execR0N (alu : Nibble → Nibble → Flags → Nibble × Flags) (n : Nibble) (s : State) : Result :=
  let a := s.readReg r0
  let t := alu a.1 n s.flags
  .next ((a.2.writeReg r0 t.1).setFlags t.2)

/-- INC and DEC: the flags and then the register write with the trigger (R173, R174). -/
def execUnaryTrigger (alu : Nibble → Flags → Nibble × Flags) (y : Reg) (s : State) : Result :=
  let a := s.readReg y
  let t := alu a.1 s.flags
  (a.2.setFlags t.2).writeTrigger y t.1

/-- BSET, BCLR and BTG: the read-modify-write of one cell, no flag written (44_exr_bit_rrc.md R194 to R196). -/
def execBitWrite (f : Nibble → Nibble → Nibble) (g : BitSel) (m : BitVec 2) (s : State) : Result :=
  let a := s.bitCellWrite g
  let v := s.memRead a
  .next (v.2.memWrite a (f v.1 (bitMask m)))

end Sys2Proof.Machine
end

