-- ==== Sys2Proof/Machine/AluRR.lean ====
section
/-! DEFINITION. The meanings of ADD, ADC, SUB, SBB, OR, AND, XOR RX,RY (40_alu_rr.md). -/
namespace Sys2Proof.Machine

/-- ADD RX,RY (R111). -/
def execAddXY (x y : Reg) (s : State) : Result := execRR aluAdd x y s

/-- ADC RX,RY (R112). -/
def execAdcXY (x y : Reg) (s : State) : Result := execRR aluAdc x y s

/-- SUB RX,RY (R113). -/
def execSubXY (x y : Reg) (s : State) : Result := execRR aluSub x y s

/-- SBB RX,RY (R114). -/
def execSbbXY (x y : Reg) (s : State) : Result := execRR aluSbb x y s

/-- OR RX,RY (R115). -/
def execOrXY (x y : Reg) (s : State) : Result := execRR aluOr x y s

/-- AND RX,RY (R116). -/
def execAndXY (x y : Reg) (s : State) : Result := execRR aluAnd x y s

/-- XOR RX,RY (R117). -/
def execXorXY (x y : Reg) (s : State) : Result := execRR aluXor x y s

end Sys2Proof.Machine
end

