-- ==== Sys2Proof/Machine/Control.lean ====
section
/-!
DEFINITION. The meanings of JR (42_jr_jump_call.md R151), RET and SKIP (45_ret_skip.md R211, R212). `pc` already
holds the address of the following word (00_scope.md R11).
-/
namespace Sys2Proof.Machine

/-- JR NN (R151). -/
def execJr (nn : BitVec 8) (s : State) : Result := .next (s.setPc (s.pc + jrOffset nn))

/-- RET R0,N: refused with the stack empty, before anything is written (R155, R211). -/
def execRet (n : Nibble) (s : State) : Result :=
  if s.sp = 0#3 then .refused .stackUnderflow else .next (s.writeReg r0 n).pop

/-- SKIP F,M (R212). -/
def execSkip (f : SkipCond) (count : Nat) (s : State) : Result :=
  .next (if condHolds f s.flags then s.setPc (s.pc + BitVec.ofNat 12 count) else s)

end Sys2Proof.Machine
end

