-- ==== Sys2Proof/Machine/ExrBitRrc.lean ====
section
/-! DEFINITION. The meanings of EXR N, BIT, BSET, BCLR, BTG RG,M and RRC RY (44_exr_bit_rrc.md). -/
namespace Sys2Proof.Machine

/-- The exchange of one pair, DM[i] with DM[0xE0 + i], through the ports' rules (R191, 20_memory.md R60, R70). -/
def exchangePair (s : State) (i : Nat) : State :=
  let a := s.memRead (BitVec.ofNat 8 i)
  let b := a.2.memRead (0xE0#8 + BitVec.ofNat 8 i)
  (b.2.memWrite (BitVec.ofNat 8 i) b.1).memWrite (0xE0#8 + BitVec.ofNat 8 i) a.1

/-- The exchange of the pairs 0 to n - 1, ascending (R191). -/
def exchangePairs (s : State) : Nat → State
  | 0 => s
  | n + 1 => exchangePair (exchangePairs s n) n

/-- EXR N: a count that reaches cells 0x0C and 0x0D is refused (R156, R191). -/
def execExr (count : Nat) (s : State) : Result :=
  if 13 ≤ count then .refused .triggerOther else .next (exchangePairs s count)

/-- BIT RG,M: only flag Z is written (R193). -/
def execBit (g : BitSel) (m : BitVec 2) (s : State) : Result :=
  let v := s.memRead (s.bitCellRead g)
  .next (v.2.setFlags (bitFlags v.1 m s.flags))

/-- BSET RG,M (R194). -/
def execBset (g : BitSel) (m : BitVec 2) (s : State) : Result := execBitWrite (fun v b => v ||| b) g m s

/-- BCLR RG,M (R195). -/
def execBclr (g : BitSel) (m : BitVec 2) (s : State) : Result := execBitWrite (fun v b => v &&& ~~~b) g m s

/-- BTG RG,M (R196). -/
def execBtg (g : BitSel) (m : BitVec 2) (s : State) : Result := execBitWrite (fun v b => v ^^^ b) g m s

/-- RRC RY: R12 and R13 are refused (R197, R156). -/
def execRrc (y : Reg) (s : State) : Result :=
  if isTriggerReg y then .refused .triggerOther
  else
    let a := s.readReg y
    let t := aluRrc a.1 s.flags
    .next ((a.2.writeReg y t.1).setFlags t.2)

end Sys2Proof.Machine
end

