-- ==== Sys2Proof/Machine/LiteralUnary.lean ====
section
/-! DEFINITION. The meanings of CP, ADD, OR, AND, XOR R0,N and INC, DEC, DSZ RY (43_r0_literal_unary.md). -/
namespace Sys2Proof.Machine

/-- CP R0,N: only flags C and Z are written (R171). -/
def execCpN (n : Nibble) (s : State) : Result :=
  let a := s.readReg r0
  .next (a.2.setFlags (cpFlags a.1 n s.flags))

/-- ADD R0,N (R172). -/
def execAddN (n : Nibble) (s : State) : Result := execR0N aluAddN n s

/-- INC RY (R173). -/
def execInc (y : Reg) (s : State) : Result := execUnaryTrigger aluInc y s

/-- DEC RY (R174). -/
def execDec (y : Reg) (s : State) : Result := execUnaryTrigger aluDec y s

/-- DSZ RY: no flag written; R12 and R13 are refused (R175, R156). -/
def execDsz (y : Reg) (s : State) : Result :=
  if isTriggerReg y then .refused .triggerOther
  else
    let a := s.readReg y
    let r := a.1 - 1#4
    let t := a.2.writeReg y r
    .next (if r = 0#4 then t.setPc (t.pc + 1#12) else t)

/-- OR R0,N (R176). -/
def execOrN (n : Nibble) (s : State) : Result := execR0N aluOrN n s

/-- AND R0,N (R177). -/
def execAndN (n : Nibble) (s : State) : Result := execR0N aluAndN n s

/-- XOR R0,N (R178). -/
def execXorN (n : Nibble) (s : State) : Result := execR0N aluXorN n s

end Sys2Proof.Machine
end

