-- ==== Sys2Proof/Machine/Mov.lean ====
section
/-! DEFINITION. The meanings of the seven MOV instructions (41_mov.md); none reads or writes a flag (R130). -/
namespace Sys2Proof.Machine

/-- MOV RX,RY (R131). -/
def execMovXY (x y : Reg) (s : State) : Result :=
  let v := s.readReg y
  v.2.writeTrigger x v.1

/-- MOV RX,N (R132). -/
def execMovXN (x : Reg) (n : Nibble) (s : State) : Result := s.writeTrigger x n

/-- MOV [XY],R0: the address registers and R0 are read before the write (R133). -/
def execStoreXY (x y : Reg) (s : State) : Result :=
  let a := s.pairAddr x y
  let v := a.2.readReg r0
  v.2.explicitWrite a.1 v.1

/-- MOV R0,[XY]: the address is formed before R0 is written (R134). -/
def execLoadXY (x y : Reg) (s : State) : Result :=
  let a := s.pairAddr x y
  a.2.explicitRead a.1 fun v t => .next (t.writeReg r0 v)

/-- MOV [NN],R0 (R135). -/
def execStoreNN (nn : Addr) (s : State) : Result :=
  let v := s.readReg r0
  v.2.explicitWrite nn v.1

/-- MOV R0,[NN] (R136). -/
def execLoadNN (nn : Addr) (s : State) : Result :=
  s.explicitRead nn fun v t => .next (t.writeReg r0 v)

/-- MOV PC,NN: PCM gets the low nibble, PCH the high one, and the program counter is not written (R137). -/
def execMovPC (nn : BitVec 8) (s : State) : Result :=
  .next ((s.writeReg 14#4 (nn.extractLsb' 0 4)).writeReg 15#4 (nn.extractLsb' 4 4))

end Sys2Proof.Machine
end

