-- ==== Sys2Proof/Machine/Dispatch.lean ====
section
/-! DEFINITION. One arm per instruction (30_encoding.md R84), each one call of its meaning. -/
namespace Sys2Proof.Machine

def exec (i : Instr) (s : State) : Host.Outcome State Fault Refusal :=
  match i with
  | .addXY x y => Sys2Proof.Machine.execAddXY x y s
  | .adcXY x y => Sys2Proof.Machine.execAdcXY x y s
  | .subXY x y => Sys2Proof.Machine.execSubXY x y s
  | .sbbXY x y => Sys2Proof.Machine.execSbbXY x y s
  | .orXY x y => Sys2Proof.Machine.execOrXY x y s
  | .andXY x y => Sys2Proof.Machine.execAndXY x y s
  | .xorXY x y => Sys2Proof.Machine.execXorXY x y s
  | .movXY x y => Sys2Proof.Machine.execMovXY x y s
  | .movXN x n => Sys2Proof.Machine.execMovXN x n s
  | .storeXY x y => Sys2Proof.Machine.execStoreXY x y s
  | .loadXY x y => Sys2Proof.Machine.execLoadXY x y s
  | .storeNN nn => Sys2Proof.Machine.execStoreNN nn s
  | .loadNN nn => Sys2Proof.Machine.execLoadNN nn s
  | .movPC nn => Sys2Proof.Machine.execMovPC nn s
  | .jr nn => Sys2Proof.Machine.execJr nn s
  | .cpN n => Sys2Proof.Machine.execCpN n s
  | .addN n => Sys2Proof.Machine.execAddN n s
  | .inc y => Sys2Proof.Machine.execInc y s
  | .dec y => Sys2Proof.Machine.execDec y s
  | .dsz y => Sys2Proof.Machine.execDsz y s
  | .orN n => Sys2Proof.Machine.execOrN n s
  | .andN n => Sys2Proof.Machine.execAndN n s
  | .xorN n => Sys2Proof.Machine.execXorN n s
  | .exr count => Sys2Proof.Machine.execExr count s
  | .bit g m => Sys2Proof.Machine.execBit g m s
  | .bset g m => Sys2Proof.Machine.execBset g m s
  | .bclr g m => Sys2Proof.Machine.execBclr g m s
  | .btg g m => Sys2Proof.Machine.execBtg g m s
  | .rrc y => Sys2Proof.Machine.execRrc y s
  | .ret n => Sys2Proof.Machine.execRet n s
  | .skip f count => Sys2Proof.Machine.execSkip f count s

end Sys2Proof.Machine
end

