-- ==== Sys2Proof/Machine/Step.lean ====
section
/-! DEFINITION. One step of the processor (00_scope.md R11, 60_exceptions.md R242). -/
namespace Sys2Proof.Machine

/-- Fetch, increment, then execute (R11; log 20). -/
def step (s : State) : Host.Outcome State Fault Refusal := exec (decode s.fetch) s.advance

/-- `s` with the word `w` loaded at the address `step` fetches from: the load of a one-word image from outside
(R244; log 6). The word is 12 bits whatever `nbits` counts (log 24). -/
def State.withFetchWord (s : State) (_nbits w : Nat) : State :=
  { s with prog := s.prog.write s.pc.toNat (BitVec.ofNat 12 w) }

end Sys2Proof.Machine
end

