-- ==== Sys2Proof/Safety.lean ====
section
/-!
DEFINITION. The words the statements are written in: the invariant of every reachable state, a terminal state
(70_reset_and_hazards.md R270), the data cells an instruction writes (20_memory.md R53), and what one cell write, a
program jump and a subroutine call leave behind, each said through the reading of one cell.
-/
namespace Sys2Proof.Machine

/-- Both memories in canonical form and within the address spaces (20_memory.md R50), SP a legal value
(10_state.md R31). -/
abbrev State.Inv (s : State) : Prop :=
  s.mem.wf 256 = true ∧ s.prog.wf 4096 = true ∧ s.sp ≤ 5#3

/-- The next word is `JR -1`, at which R270 ends a run (the processor spins there; log 25). -/
abbrev State.terminal (s : State) : Prop := s.fetch = 0xFFF#12

/-- IOPOS as the spec names it: bit 1 of the cell 0xF3 (10_state.md R33). -/
abbrev State.ioposSet (s : State) : Prop := (s.cell 0xF3#8).getLsbD 1 = true

/-- `a` is the IN location, or 0xFB (20_memory.md R60, R61): its reads are draws, its content is unspecified. -/
abbrev State.inputCell (s : State) (a : Addr) : Prop := a = 0xFB#8 ∨ (a = 0x0B#8 ∧ ¬ s.ioposSet)

/-- `a` is the OUT location (20_memory.md R59). -/
abbrev State.outputCell (s : State) (a : Addr) : Prop := (a = 0xFA#8 ∧ s.ioposSet) ∨ (a = 0x0A#8 ∧ ¬ s.ioposSet)

/-- The page-15 addresses a memory move may not access: all but 0xF3, 0xFA, 0xFB (R62). -/
abbrev undocumentedAddr (a : Addr) : Prop := 0xF0 ≤ a.toNat ∧ a ≠ 0xF3#8 ∧ a ≠ 0xFA#8 ∧ a ≠ 0xFB#8

/-- The data address of `[XY]`: both registers read, RX first, RX the high nibble (R93). -/
abbrev State.pairOperand (s : State) (x y : Reg) : Addr :=
  (s.readReg x).1 ++ ((s.readReg x).2.readReg y).1

/-- The state after both registers of `[XY]` are read. -/
abbrev State.afterPair (s : State) (x y : Reg) : State := ((s.readReg x).2.readReg y).2

/-- Nibble `j` of stack entry `k` is the cell 0x10 + 3k + j (10_state.md R32). -/
abbrev entryCell (k j : Nat) : Addr := BitVec.ofNat 8 (0x10 + 3 * k + j)

/-- The data cells an instruction writes when it completes (R53): its destination register, the memory cell it
stores to, and for a write of JSR by MOV, INC, DEC the stack entry numbered SP. -/
def writtenCells (i : Instr) (s : State) : List Addr :=
  let withCall (r : Reg) : List Addr :=
    if r = 12#4 then
      [regAddr r, entryCell s.sp.toNat 0, entryCell s.sp.toNat 1, entryCell s.sp.toNat 2]
    else [regAddr r]
  match i with
  | .addXY x _ => [regAddr x]
  | .adcXY x _ => [regAddr x]
  | .subXY x _ => [regAddr x]
  | .sbbXY x _ => [regAddr x]
  | .orXY x _ => [regAddr x]
  | .andXY x _ => [regAddr x]
  | .xorXY x _ => [regAddr x]
  | .movXY x _ => withCall x
  | .movXN x _ => withCall x
  | .storeXY x y => [s.pairOperand x y]
  | .loadXY _ _ => [0x00#8]
  | .storeNN nn => [nn]
  | .loadNN _ => [0x00#8]
  | .movPC _ => [0x0E#8, 0x0F#8]
  | .jr _ => []
  | .cpN _ => []
  | .addN _ => [0x00#8]
  | .inc y => withCall y
  | .dec y => withCall y
  | .dsz y => [regAddr y]
  | .orN _ => [0x00#8]
  | .andN _ => [0x00#8]
  | .xorN _ => [0x00#8]
  | .exr count => (List.range count).map (fun i => BitVec.ofNat 8 i) ++
      (List.range count).map (fun i => BitVec.ofNat 8 (0xE0 + i))
  | .bit _ _ => []
  | .bset g _ => [s.bitCellWrite g]
  | .bclr g _ => [s.bitCellWrite g]
  | .btg g _ => [s.bitCellWrite g]
  | .rrc y => [regAddr y]
  | .ret _ => [0x00#8]
  | .skip _ _ => []

/-- From `s` to `t` the value `v` was written to data cell `a` and nothing else in either memory: the cell holds `v`,
unless it is an input cell, of whose content nothing is said; every other cell reads as before; program memory is as
before. -/
structure WroteCell (s : State) (a : Addr) (v : Nibble) (t : State) : Prop where
  stored : ¬ s.inputCell a → t.cell a = v
  kept : ∀ b, b ≠ a → t.cell b = s.cell b
  image : t.prog = s.prog

/-- From `s` to `t` no data cell and no word of program memory changed. -/
structure WroteNothing (s t : State) : Prop where
  kept : ∀ b, t.cell b = s.cell b
  image : t.prog = s.prog

/-- From `s` to `t` the value `v` was written to PCL and the program jump taken: `t.pc` is PCH : PCM : v, SP as before
(42_jr_jump_call.md R152, R153). -/
structure Jumped (s : State) (v : Nibble) (t : State) : Prop where
  wrote : WroteCell s 0x0D#8 v t
  target : t.pc = s.cell 0x0F#8 ++ s.cell 0x0E#8 ++ v
  level : t.sp = s.sp

/-- From `s` to `t` the value `v` was written to JSR and the subroutine call taken: entry SP holds the address of the
word after the calling instruction, low nibble in the lowest cell, SP counts it, `t.pc` is PCH : PCM : v, and every
cell but JSR and the entry's three reads as before (R152, R154). -/
structure Called (s : State) (v : Nibble) (t : State) : Prop where
  written : t.cell 0x0C#8 = v
  low : t.cell (entryCell s.sp.toNat 0) = s.pc.extractLsb' 0 4
  middle : t.cell (entryCell s.sp.toNat 1) = s.pc.extractLsb' 4 4
  high : t.cell (entryCell s.sp.toNat 2) = s.pc.extractLsb' 8 4
  kept : ∀ b, b ≠ 0x0C#8 → b ≠ entryCell s.sp.toNat 0 → b ≠ entryCell s.sp.toNat 1 → b ≠ entryCell s.sp.toNat 2 →
    t.cell b = s.cell b
  level : t.sp.toNat = s.sp.toNat + 1
  target : t.pc = s.cell 0x0F#8 ++ s.cell 0x0E#8 ++ v
  image : t.prog = s.prog

end Sys2Proof.Machine
end

