-- ==== Sys2Proof/Certificates/Slice0/Obligations.lean ====
section
/-!
DEFINITION. The statements for the provers. In a statement about one instruction `s` is the state the instruction
executes in, its `pc` already at the following word (00_scope.md R11). Register operands are named by what reading
them gives, `(s.readReg r).1`; `RegistersAreCellsOfPageZero` says that this is the register's cell, and a draw where
the register is the IN location. What an instruction emits at the OUT location is said once for all instructions, by
`OutputEventsOfEveryInstruction`.
-/
open Sys2Proof Sys2Proof.Machine

/-! ## Encoding -/

/-- Decoding an encoded well-formed instruction gives it back, and encoding a decoded word gives that word (R84, R94,
R95: decoding is a bijection). -/
def Obligations.DecodeAndEncodeAreInverse : Prop :=
  (∀ i : Instr, i.wellFormed = true → decode (encode i) = i) ∧
  (∀ w : InstrWord, (decode w).wellFormed = true ∧ encode (decode w) = w)

/-- R84, R88, R89: every row of the instruction list by its match and mask, with the operands of its fields. Of the
condition codes of SKIP only nc = 01, the one a worked encoding fixes, is said here; see `SkipConditionCodes`. -/
def Obligations.DecodeFollowsTheInstructionList : Prop :=
  ∀ w : InstrWord,
    let x : BitVec 4 := w.extractLsb' 4 4
    let y : BitVec 4 := w.extractLsb' 0 4
    let nn : BitVec 8 := w.extractLsb' 0 8
    let g : BitVec 2 := w.extractLsb' 2 2
    let m : BitVec 2 := w.extractLsb' 0 2
    let sel : BitSel := if g = 0#2 then .r0 else if g = 1#2 then .r1 else if g = 2#2 then .r2 else .rs
    (w &&& 0xF00#12 = 0x100#12 → decode w = .addXY x y) ∧
    (w &&& 0xF00#12 = 0x200#12 → decode w = .adcXY x y) ∧
    (w &&& 0xF00#12 = 0x300#12 → decode w = .subXY x y) ∧
    (w &&& 0xF00#12 = 0x400#12 → decode w = .sbbXY x y) ∧
    (w &&& 0xF00#12 = 0x500#12 → decode w = .orXY x y) ∧
    (w &&& 0xF00#12 = 0x600#12 → decode w = .andXY x y) ∧
    (w &&& 0xF00#12 = 0x700#12 → decode w = .xorXY x y) ∧
    (w &&& 0xF00#12 = 0x800#12 → decode w = .movXY x y) ∧
    (w &&& 0xF00#12 = 0x900#12 → decode w = .movXN x y) ∧
    (w &&& 0xF00#12 = 0xA00#12 → decode w = .storeXY x y) ∧
    (w &&& 0xF00#12 = 0xB00#12 → decode w = .loadXY x y) ∧
    (w &&& 0xF00#12 = 0xC00#12 → decode w = .storeNN nn) ∧
    (w &&& 0xF00#12 = 0xD00#12 → decode w = .loadNN nn) ∧
    (w &&& 0xF00#12 = 0xE00#12 → decode w = .movPC nn) ∧
    (w &&& 0xF00#12 = 0xF00#12 → decode w = .jr nn) ∧
    (w &&& 0xFF0#12 = 0x000#12 → decode w = .cpN y) ∧
    (w &&& 0xFF0#12 = 0x010#12 → decode w = .addN y) ∧
    (w &&& 0xFF0#12 = 0x020#12 → decode w = .inc y) ∧
    (w &&& 0xFF0#12 = 0x030#12 → decode w = .dec y) ∧
    (w &&& 0xFF0#12 = 0x040#12 → decode w = .dsz y) ∧
    (w &&& 0xFF0#12 = 0x050#12 → decode w = .orN y) ∧
    (w &&& 0xFF0#12 = 0x060#12 → decode w = .andN y) ∧
    (w &&& 0xFF0#12 = 0x070#12 → decode w = .xorN y) ∧
    (w &&& 0xFF0#12 = 0x080#12 → decode w = .exr (if y = 0#4 then 16 else y.toNat)) ∧
    (w &&& 0xFF0#12 = 0x090#12 → decode w = .bit sel m) ∧
    (w &&& 0xFF0#12 = 0x0A0#12 → decode w = .bset sel m) ∧
    (w &&& 0xFF0#12 = 0x0B0#12 → decode w = .bclr sel m) ∧
    (w &&& 0xFF0#12 = 0x0C0#12 → decode w = .btg sel m) ∧
    (w &&& 0xFF0#12 = 0x0D0#12 → decode w = .rrc y) ∧
    (w &&& 0xFF0#12 = 0x0E0#12 → decode w = .ret y) ∧
    (w &&& 0xFF0#12 = 0x0F0#12 →
      ∃ f, decode w = .skip f (if m = 0#2 then 4 else m.toNat) ∧ (g = 1#2 → f = .nc))

/-- Words printed with the source's worked examples decode to the instruction printed beside them
(95_test_vectors.md section 1). -/
def Obligations.WordsOfTheWorkedExamplesDecode : Prop :=
  decode 0x120#12 = .addXY 2 0 ∧ decode 0x467#12 = .sbbXY 6 7 ∧ decode 0x865#12 = .movXY 6 5 ∧
  decode 0xB47#12 = .loadXY 4 7 ∧ decode 0xC19#12 = .storeNN 0x19 ∧ decode 0xE31#12 = .movPC 0x31 ∧
  decode 0xFFD#12 = .jr (-3) ∧ decode 0x038#12 = .dec 8 ∧ decode 0x08A#12 = .exr 10 ∧
  decode 0x0AF#12 = .bset .rs 3 ∧ decode 0x0D4#12 = .rrc 4 ∧ decode 0x0E4#12 = .ret 4 ∧
  decode 0x0F6#12 = .skip .nc 2

/-! ## The step -/

/-- Fetch, increment, then the instruction the word decodes to, on the ring of 4096 words (00_scope.md R11; 10_state.md R27).
That this order holds for all instructions is the spec's decision D7, the ring for the plain increment its decision D9
(log 20); the source says both of JR. -/
def Obligations.StepRunsTheDecodedInstruction : Prop :=
  ∀ (s : State) (w : InstrWord) (i : Instr),
    s.prog.read? s.pc.toNat = some w → decode w = i →
      step s = exec i { s with pc := BitVec.ofNat 12 ((s.pc.toNat + 1) % 4096) }

/-- Every address holds a word (20_memory.md R71, decision D19), so a step runs one from every state and never faults
(60_exceptions.md R230, decision D14): the word the state lists at PC, and the launch image's where it lists none. That
the image is held as a list over an opaque launch image is the model's choice (DESIGN CHOICE; log 6). -/
def Obligations.EveryAddressHoldsAWordToRun : Prop :=
  ∀ s : State, ∃ w : InstrWord,
    (∀ u, s.prog.read? s.pc.toNat = some u → w = u) ∧
    (s.prog.read? s.pc.toNat = none → w = Config.launchWord s.pc) ∧
    step s = exec (decode w) { s with pc := BitVec.ofNat 12 ((s.pc.toNat + 1) % 4096) } ∧
    (∀ f, step s ≠ .fault f)

/-- What `State.withFetchWord` loads is what the next step runs, from every state (log 6, 24). -/
def Obligations.LoadedWordIsRunNext : Prop :=
  ∀ (s : State) (nbits w : Nat), w < 4096 →
    step (s.withFetchWord nbits w) =
      exec (decode (BitVec.ofNat 12 w)) { s.withFetchWord nbits w with pc := s.pc + 1#12 }

/-- 70_reset_and_hazards.md R270, decision D20: the terminal word `JR -1` sets PC back to its own address and changes
nothing else (log 25). -/
def Obligations.TerminalStateRepeatsForever : Prop :=
  ∀ s : State, s.fetch = 0xFFF#12 → step s = .next s

/-! ## Data memory and registers -/

/-- R22, R23: register Ri is the data cell i; reading it gives the cell's content and changes nothing, and where it
is the IN location (decision D10) it gives the environment's next value (log 7). -/
def Obligations.RegistersAreCellsOfPageZero : Prop :=
  ∀ (s : State) (r : Reg) (v : Nibble),
    (regAddr r).toNat = r.toNat ∧
    (¬ s.inputCell (regAddr r) → s.readReg r = (s.cell (regAddr r), s)) ∧
    (s.inputCell (regAddr r) → s.readReg r = (Config.draw s.draws, { s with draws := s.draws + 1 })) ∧
    (r ≠ 10#4 → r ≠ 11#4 → s.writeReg r v = s.setCell (regAddr r) v)

/-- R63: an ordinary cell returns on read the value most recently written to it, and reading it changes nothing; a
write changes no other cell. Cells nothing has written read as the launch parameter (log 5). -/
def Obligations.OrdinaryCellsReadTheLastWrite : Prop :=
  ∀ (s : State) (a : Addr) (v : Nibble), ¬ s.inputCell a →
    (s.memWrite a v).memRead a = (v, s.memWrite a v) ∧
    (∀ b, b ≠ a → (s.memWrite a v).cell b = s.cell b) ∧
    (s.mem.read? a.toNat = none → s.memRead a = (Config.launchCell a, s))

/-- The IN location (R60) and the cell 0xFB in either placement (R61), by decision D10: every read is the
environment's next value whatever is stored, the next read takes the value after it, and a write leaves the same
state whatever value is written, with nothing emitted (log 7, 8). -/
def Obligations.InputCellsReadDrawsAndForgetWrites : Prop :=
  ∀ (s : State) (a : Addr) (u v : Nibble),
    a = 0xFB#8 ∨ (a = 0x0B#8 ∧ (s.cell 0xF3#8).getLsbD 1 = false) →
      (s.memRead a).1 = Config.draw s.draws ∧
      ((s.memRead a).2.memRead a).1 = Config.draw (s.draws + 1) ∧
      s.memWrite a u = s.memWrite a v ∧
      (s.memWrite a v).out = s.out ∧
      (∀ b, b ≠ a → (s.memWrite a v).cell b = s.cell b)

/-- The OUT location (R59, decision D10): 0xFA with IOPOS = 1 and 0x0A with IOPOS = 0; a write there is stored, reads
back and is emitted after what was emitted before, and a write of any other cell emits nothing (log 9, 29). -/
def Obligations.OutputCellLatchesAndEmits : Prop :=
  ∀ (s : State) (a : Addr) (v : Nibble),
    let o : Addr := if (s.cell 0xF3#8).getLsbD 1 = true then 0xFA#8 else 0x0A#8
    (a = o → (s.memWrite a v).out = s.out ++ [v] ∧ (s.memWrite a v).memRead a = (v, s.memWrite a v)) ∧
    (a ≠ o → (s.memWrite a v).out = s.out)

/-- The port cells that are not selected, all but 0xFB (R61, decision D10): with IOPOS = 1 the cells 0x0A and 0x0B, with
IOPOS = 0 the cell 0xFA, are ordinary storage that emits nothing. The cell 0xFB is an input cell in either placement
(log 28; `InputCellsReadDrawsAndForgetWrites`). -/
def Obligations.UnselectedPortCellsAllButFBAreStorage : Prop :=
  ∀ (s : State) (a : Addr) (v : Nibble),
    (((s.cell 0xF3#8).getLsbD 1 = true ∧ (a = 0x0A#8 ∨ a = 0x0B#8)) ∨
      ((s.cell 0xF3#8).getLsbD 1 = false ∧ a = 0xFA#8)) →
    s.memRead a = (s.cell a, s) ∧ s.memWrite a v = s.setCell a v ∧
    (s.memWrite a v).memRead a = (v, s.memWrite a v)

/-! ## Register-to-register arithmetic and logic (40_alu_rr.md) -/

/-- R111: ADD RX,RY. The overflow of V is said as the source says it, the signed sum outside -8 to +7. -/
def Obligations.AddRegistersResultFlagsFrame : Prop :=
  ∀ (x y : Reg) (s : State),
    decode (0x1#4 ++ x ++ y) = .addXY x y ∧
    (x ≠ 12#4 → x ≠ 13#4 →
      let a := (s.readReg x).1
      let b := ((s.readReg x).2.readReg y).1
      ∃ t, exec (.addXY x y) s = .next t ∧
        WroteCell s (regAddr x) (BitVec.ofNat 4 (a.toNat + b.toNat)) t ∧ t.pc = s.pc ∧ t.sp = s.sp ∧
        (t.flags.c = true ↔ 15 < a.toNat + b.toNat) ∧
        (t.flags.z = true ↔ BitVec.ofNat 4 (a.toNat + b.toNat) = 0#4) ∧
        (t.flags.v = true ↔ ¬ (-8 ≤ a.toInt + b.toInt ∧ a.toInt + b.toInt ≤ 7)))

/-- R112: ADC RX,RY, the carry added. -/
def Obligations.AddWithCarryResultFlagsFrame : Prop :=
  ∀ (x y : Reg) (s : State),
    decode (0x2#4 ++ x ++ y) = .adcXY x y ∧
    (x ≠ 12#4 → x ≠ 13#4 →
      let a := (s.readReg x).1
      let b := ((s.readReg x).2.readReg y).1
      let carry : Nat := if s.flags.c = true then 1 else 0
      ∃ t, exec (.adcXY x y) s = .next t ∧
        WroteCell s (regAddr x) (BitVec.ofNat 4 (a.toNat + b.toNat + carry)) t ∧ t.pc = s.pc ∧ t.sp = s.sp ∧
        (t.flags.c = true ↔ 15 < a.toNat + b.toNat + carry) ∧
        (t.flags.z = true ↔ BitVec.ofNat 4 (a.toNat + b.toNat + carry) = 0#4) ∧
        (t.flags.v = true ↔ ¬ (-8 ≤ a.toInt + b.toInt + carry ∧ a.toInt + b.toInt + carry ≤ 7)))

/-- R113: SUB RX,RY, C the inverse borrow. -/
def Obligations.SubtractResultFlagsFrame : Prop :=
  ∀ (x y : Reg) (s : State),
    decode (0x3#4 ++ x ++ y) = .subXY x y ∧
    (x ≠ 12#4 → x ≠ 13#4 →
      let a := (s.readReg x).1
      let b := ((s.readReg x).2.readReg y).1
      ∃ t, exec (.subXY x y) s = .next t ∧
        WroteCell s (regAddr x) (BitVec.ofInt 4 ((a.toNat : Int) - b.toNat)) t ∧ t.pc = s.pc ∧ t.sp = s.sp ∧
        (t.flags.c = true ↔ b.toNat ≤ a.toNat) ∧
        (t.flags.z = true ↔ a = b) ∧
        (t.flags.v = true ↔ ¬ (-8 ≤ a.toInt - b.toInt ∧ a.toInt - b.toInt ≤ 7)))

/-- R114: SBB RX,RY, the incoming borrow the inverse of C. -/
def Obligations.SubtractWithBorrowResultFlagsFrame : Prop :=
  ∀ (x y : Reg) (s : State),
    decode (0x4#4 ++ x ++ y) = .sbbXY x y ∧
    (x ≠ 12#4 → x ≠ 13#4 →
      let a := (s.readReg x).1
      let b := ((s.readReg x).2.readReg y).1
      let borrow : Nat := if s.flags.c = true then 0 else 1
      ∃ t, exec (.sbbXY x y) s = .next t ∧
        WroteCell s (regAddr x) (BitVec.ofInt 4 ((a.toNat : Int) - b.toNat - borrow)) t ∧ t.pc = s.pc ∧ t.sp = s.sp ∧
        (t.flags.c = true ↔ b.toNat + borrow ≤ a.toNat) ∧
        (t.flags.z = true ↔ BitVec.ofInt 4 ((a.toNat : Int) - b.toNat - borrow) = 0#4) ∧
        (t.flags.v = true ↔ ¬ (-8 ≤ a.toInt - b.toInt - borrow ∧ a.toInt - b.toInt - borrow ≤ 7)))

/-- R115, R116, R117: OR, AND, XOR RX,RY write Z only. -/
def Obligations.RegisterLogicResultFlagsFrame : Prop :=
  ∀ (x y : Reg) (s : State) (i : Instr) (r : Nibble),
    decode (0x5#4 ++ x ++ y) = .orXY x y ∧ decode (0x6#4 ++ x ++ y) = .andXY x y ∧
    decode (0x7#4 ++ x ++ y) = .xorXY x y ∧
    (x ≠ 12#4 → x ≠ 13#4 →
      let a := (s.readReg x).1
      let b := ((s.readReg x).2.readReg y).1
      ((i = .orXY x y ∧ ∀ k, r.getLsbD k = (a.getLsbD k || b.getLsbD k)) ∨
        (i = .andXY x y ∧ ∀ k, r.getLsbD k = (a.getLsbD k && b.getLsbD k)) ∨
        (i = .xorXY x y ∧ ∀ k, r.getLsbD k = (a.getLsbD k ^^ b.getLsbD k))) →
      ∃ t, exec i s = .next t ∧ WroteCell s (regAddr x) r t ∧ t.pc = s.pc ∧ t.sp = s.sp ∧
        t.flags.c = s.flags.c ∧ (t.flags.z = true ↔ r = 0#4) ∧ t.flags.v = s.flags.v)

/-- Each read of the IN location is a draw of its own (40_alu_rr.md R118, an inference from decision D10; log 10): with
IOPOS = 0, ADD R11,R11 adds two successive values of the environment. -/
def Obligations.EachReadOfInputIsItsOwnDraw : Prop :=
  ∀ s : State, (s.cell 0xF3#8).getLsbD 1 = false →
    ∃ t, exec (.addXY 11#4 11#4) s = .next t ∧
      (t.flags.c = true ↔ 15 < (Config.draw s.draws).toNat + (Config.draw (s.draws + 1)).toNat) ∧
      (t.flags.z = true ↔ Config.draw s.draws + Config.draw (s.draws + 1) = 0#4)

/-- Multi-nibble addition (40_alu_rr.md R120, derived there from R111, R112): ADD then ADC adds the 8-bit numbers held
low nibble first in two pairs of registers, C the carry out of bit 7. The registers are ordinary and no register of
the second addition is the first one's destination. -/
def Obligations.AddThenAdcAddsEightBits : Prop :=
  ∀ (lo hi lo' hi' : Reg) (s : State),
    lo.toNat < 10 → hi.toNat < 10 → lo'.toNat < 10 → hi'.toNat < 10 → hi ≠ lo → hi' ≠ lo →
    ∃ t u, exec (.addXY lo lo') s = .next t ∧ exec (.adcXY hi hi') t = .next u ∧
      u.cell (regAddr hi) ++ u.cell (regAddr lo) =
        (s.cell (regAddr hi) ++ s.cell (regAddr lo)) + (s.cell (regAddr hi') ++ s.cell (regAddr lo')) ∧
      (u.flags.c = true ↔
        255 < (s.cell (regAddr hi) ++ s.cell (regAddr lo)).toNat + (s.cell (regAddr hi') ++ s.cell (regAddr lo')).toNat)

/-- 30_encoding.md R100, the substitutes for SL, RLC, SET C, CLEAR C and TOGGLE C. -/
def Obligations.SubstitutesForMissingInstructions : Prop :=
  ∀ (y : Reg) (s : State),
    (y.toNat < 10 →
      (∃ t, exec (.addXY y y) s = .next t ∧ t.cell (regAddr y) = s.cell (regAddr y) <<< 1 ∧
        t.flags.c = (s.cell (regAddr y)).getLsbD 3) ∧
      (∃ t, exec (.adcXY y y) s = .next t ∧
        t.cell (regAddr y) = (s.cell (regAddr y) <<< 1) ||| (if s.flags.c = true then 1#4 else 0#4) ∧
        t.flags.c = (s.cell (regAddr y)).getLsbD 3)) ∧
    (∃ t, exec (.orN 0#4) s = .next t ∧ (∀ a, t.cell a = s.cell a) ∧ t.flags.c = true) ∧
    (∃ t, exec (.andN 15#4) s = .next t ∧ (∀ a, t.cell a = s.cell a) ∧ t.flags.c = false) ∧
    (∃ t, exec (.xorN 0#4) s = .next t ∧ (∀ a, t.cell a = s.cell a) ∧ t.flags.c = !s.flags.c)

/-! ## Moves (41_mov.md) -/

/-- MOV RX,RY (R131), with the jump and the call of R13 and R12 as the spec decides them (D4, D5, D6; log 12, 17). -/
def Obligations.MoveRegisterResultFrame : Prop :=
  ∀ (x y : Reg) (s : State),
    let v := (s.readReg y).1
    decode (0x8#4 ++ x ++ y) = .movXY x y ∧
    (x ≠ 12#4 → x ≠ 13#4 → ∃ t, exec (.movXY x y) s = .next t ∧
      WroteCell s (regAddr x) v t ∧ t.flags = s.flags ∧ t.pc = s.pc ∧ t.sp = s.sp) ∧
    (x = 13#4 → ∃ t, exec (.movXY x y) s = .next t ∧ Jumped s v t ∧ t.flags = s.flags) ∧
    (x = 12#4 → s.sp.toNat < 5 → ∃ t, exec (.movXY x y) s = .next t ∧ Called s v t ∧ t.flags = s.flags) ∧
    (x = 12#4 → 5 ≤ s.sp.toNat → exec (.movXY x y) s = .refused .stackOverflow)

/-- MOV RX,N (R132), with the jump and the call of R13 and R12 as the spec decides them (D4, D5, D6; log 12, 17). -/
def Obligations.MoveLiteralResultFrame : Prop :=
  ∀ (x : Reg) (n : Nibble) (s : State),
    decode (0x9#4 ++ x ++ n) = .movXN x n ∧
    (x ≠ 12#4 → x ≠ 13#4 → ∃ t, exec (.movXN x n) s = .next t ∧
      WroteCell s (regAddr x) n t ∧ t.flags = s.flags ∧ t.pc = s.pc ∧ t.sp = s.sp) ∧
    (x = 13#4 → ∃ t, exec (.movXN x n) s = .next t ∧ Jumped s n t ∧ t.flags = s.flags) ∧
    (x = 12#4 → s.sp.toNat < 5 → ∃ t, exec (.movXN x n) s = .next t ∧ Called s n t ∧ t.flags = s.flags) ∧
    (x = 12#4 → 5 ≤ s.sp.toNat → exec (.movXN x n) s = .refused .stackOverflow)

/-- MOV [XY],R0 and MOV [NN],R0 (R133, R135): the store of R0 at the address read from the registers, or named by the
word; the refused addresses are the spec's decisions D3 and D11 (log 11, 15). -/
def Obligations.StoreMovesResultFrame : Prop :=
  ∀ (x y : Reg) (nn a : Addr) (s : State) (i : Instr),
    decode (0xA#4 ++ x ++ y) = .storeXY x y ∧ decode (0xC#4 ++ nn) = .storeNN nn ∧
    ((i = .storeXY x y ∧ a = s.pairOperand x y) ∨ (i = .storeNN nn ∧ a = nn) →
      (¬ undocumentedAddr a → a ≠ 0x0C#8 → a ≠ 0x0D#8 → ∃ t, exec i s = .next t ∧
        WroteCell s a (s.cell 0x00#8) t ∧ t.flags = s.flags ∧ t.pc = s.pc ∧ t.sp = s.sp) ∧
      (a = 0x0C#8 ∨ a = 0x0D#8 → exec i s = .refused .triggerOther) ∧
      (undocumentedAddr a → exec i s = .refused .sfrNotInSource))

/-- MOV R0,[XY] and MOV R0,[NN] (R134, R136): R0 receives what reading the address gives; the refused addresses are the
spec's decision D11 (log 14, 15). -/
def Obligations.LoadMovesResultFrame : Prop :=
  ∀ (x y : Reg) (nn a : Addr) (s u : State) (i : Instr),
    decode (0xB#4 ++ x ++ y) = .loadXY x y ∧ decode (0xD#4 ++ nn) = .loadNN nn ∧
    ((i = .loadXY x y ∧ a = s.pairOperand x y ∧ u = s.afterPair x y) ∨ (i = .loadNN nn ∧ a = nn ∧ u = s) →
      (¬ undocumentedAddr a → a ≠ 0xF3#8 → ∃ t, exec i s = .next t ∧
        WroteCell s 0x00#8 (u.memRead a).1 t ∧ t.flags = s.flags ∧ t.pc = s.pc ∧ t.sp = s.sp) ∧
      (a = 0xF3#8 → exec i s = .refused .wrflagsRead) ∧
      (undocumentedAddr a → exec i s = .refused .sfrNotInSource))

/-- R137: MOV PC,NN writes PCM and PCH and nothing else; the program counter is not written. -/
def Obligations.MovePcLoadsPcmAndPch : Prop :=
  ∀ (nn : BitVec 8) (s : State),
    decode (0xE#4 ++ nn) = .movPC nn ∧
    ∃ t, exec (.movPC nn) s = .next t ∧
      t.cell 0x0E#8 = nn.extractLsb' 0 4 ∧ t.cell 0x0F#8 = nn.extractLsb' 4 4 ∧
      (∀ a, a ≠ 0x0E#8 → a ≠ 0x0F#8 → t.cell a = s.cell a) ∧
      t.flags = s.flags ∧ t.pc = s.pc ∧ t.sp = s.sp ∧ t.prog = s.prog

/-! ## Control transfer (42_jr_jump_call.md, 45_ret_skip.md) -/

/-- R151: JR NN adds the signed literal to the incremented PC, modulo 4096, and changes nothing else. -/
def Obligations.JumpRelativeTargetFrame : Prop :=
  ∀ (nn : BitVec 8) (s : State),
    decode (0xF#4 ++ nn) = .jr nn ∧
    ∃ t, exec (.jr nn) s = .next t ∧
      (t.pc.toNat : Int) = ((s.pc.toNat : Int) + nn.toInt) % 4096 ∧
      WroteNothing s t ∧ t.flags = s.flags ∧ t.sp = s.sp

/-- RET R0,N (R211): R0 gets N, SP counts one less, PC is the popped entry with no increment, the stack cells stay;
the refusal at SP = 0 is the spec's decision D6 (log 12). -/
def Obligations.ReturnPopsTheEntry : Prop :=
  ∀ (n : Nibble) (s : State),
    decode (0x0E#8 ++ n) = .ret n ∧
    (s.sp = 0#3 → exec (.ret n) s = .refused .stackUnderflow) ∧
    (s.sp ≠ 0#3 → ∃ t, exec (.ret n) s = .next t ∧
      WroteCell s 0x00#8 n t ∧ t.flags = s.flags ∧ t.sp.toNat = s.sp.toNat - 1 ∧
      t.pc = s.cell (entryCell (s.sp.toNat - 1) 2) ++ s.cell (entryCell (s.sp.toNat - 1) 1) ++
        s.cell (entryCell (s.sp.toNat - 1) 0))

/-- SKIP F,M (R212), its condition codes the spec's parameter SKIP_COND_MAP (decision D8; log 16). -/
def Obligations.SkipStepsOverWords : Prop :=
  ∀ (f : SkipCond) (count : Nat) (s : State),
    let holds : Prop := match f with
      | .c => s.flags.c = true
      | .nc => s.flags.c = false
      | .z => s.flags.z = true
      | .nz => s.flags.z = false
    ∃ t, exec (.skip f count) s = .next t ∧ WroteNothing s t ∧ t.flags = s.flags ∧ t.sp = s.sp ∧
      (holds → t.pc.toNat = (s.pc.toNat + count) % 4096) ∧ (¬ holds → t.pc = s.pc)

/-- The condition codes of SKIP as words: 00 = c, 01 = nc, 10 = z, 11 = nz, the spec's parameter SKIP_COND_MAP (R90,
decision D8; log 16). Such a word changes PC alone, and only where its condition holds. -/
def Obligations.SkipConditionCodes : Prop :=
  ∀ (w : InstrWord) (s : State), w &&& 0xFF0#12 = 0x0F0#12 →
    let code : BitVec 2 := w.extractLsb' 2 2
    let m : BitVec 2 := w.extractLsb' 0 2
    let cond : Bool :=
      if code = 0#2 then s.flags.c else if code = 1#2 then !s.flags.c else if code = 2#2 then s.flags.z else !s.flags.z
    let count : Nat := if m = 0#2 then 4 else m.toNat
    exec (decode w) s =
      .next { s with pc := if cond = true then BitVec.ofNat 12 ((s.pc.toNat + count) % 4096) else s.pc }

/-- The call is undone by RET (42_jr_jump_call.md R154, decision D4: the push is the exact inverse of RET; log 17): after
a call by any of the four instructions, in any state with the SP it left and the stack entry it wrote, RET resumes at
the word after the calling instruction, one level down. -/
def Obligations.ReturnInvertsTheCall : Prop :=
  ∀ (i : Instr) (y : Reg) (n k : Nibble) (s t t' : State),
    i = .movXY 12#4 y ∨ i = .movXN 12#4 n ∨ i = .inc 12#4 ∨ i = .dec 12#4 →
    exec i s = .next t →
    t'.sp = t.sp →
    (∀ j, j < 3 → t'.cell (entryCell s.sp.toNat j) = t.cell (entryCell s.sp.toNat j)) →
    ∃ u, exec (.ret k) t' = .next u ∧ u.pc = s.pc ∧ u.sp = s.sp ∧ u.cell 0x00#8 = k ∧ u.flags = t'.flags

/-! ## R0 with literal, single-register instructions (43_r0_literal_unary.md) -/

/-- R171: CP R0,N. -/
def Obligations.CompareLiteralFlagsFrame : Prop :=
  ∀ (n : Nibble) (s : State),
    decode (0x00#8 ++ n) = .cpN n ∧
    ∃ t, exec (.cpN n) s = .next t ∧ WroteNothing s t ∧ t.pc = s.pc ∧ t.sp = s.sp ∧
      (t.flags.c = true ↔ n.toNat ≤ (s.cell 0x00#8).toNat) ∧
      (t.flags.z = true ↔ s.cell 0x00#8 = n) ∧ t.flags.v = s.flags.v

/-- R172: ADD R0,N. -/
def Obligations.AddLiteralResultFlagsFrame : Prop :=
  ∀ (n : Nibble) (s : State),
    decode (0x01#8 ++ n) = .addN n ∧
    ∃ t, exec (.addN n) s = .next t ∧
      WroteCell s 0x00#8 (BitVec.ofNat 4 ((s.cell 0x00#8).toNat + n.toNat)) t ∧ t.pc = s.pc ∧ t.sp = s.sp ∧
      (t.flags.c = true ↔ 15 < (s.cell 0x00#8).toNat + n.toNat) ∧
      (t.flags.z = true ↔ ((s.cell 0x00#8).toNat + n.toNat) % 16 = 0) ∧ t.flags.v = s.flags.v

/-- R176, R177, R178: OR, AND, XOR R0,N set, reset and complement C. -/
def Obligations.LiteralLogicResultFlagsFrame : Prop :=
  ∀ (n : Nibble) (s : State) (i : Instr) (r : Nibble) (c : Bool),
    decode (0x05#8 ++ n) = .orN n ∧ decode (0x06#8 ++ n) = .andN n ∧ decode (0x07#8 ++ n) = .xorN n ∧
    (((i = .orN n ∧ c = true ∧ ∀ k, r.getLsbD k = ((s.cell 0x00#8).getLsbD k || n.getLsbD k)) ∨
        (i = .andN n ∧ c = false ∧ ∀ k, r.getLsbD k = ((s.cell 0x00#8).getLsbD k && n.getLsbD k)) ∨
        (i = .xorN n ∧ c = !s.flags.c ∧ ∀ k, r.getLsbD k = ((s.cell 0x00#8).getLsbD k ^^ n.getLsbD k))) →
      ∃ t, exec i s = .next t ∧ WroteCell s 0x00#8 r t ∧ t.pc = s.pc ∧ t.sp = s.sp ∧
        t.flags.c = c ∧ (t.flags.z = true ↔ r = 0#4) ∧ t.flags.v = s.flags.v)

/-- INC RY (R173), with the jump and the call of R13 and R12 as the spec decides them (D4, D5, D6; log 12, 17). -/
def Obligations.IncrementResultFlagsFrame : Prop :=
  ∀ (y : Reg) (s : State),
    let r : Nibble := BitVec.ofNat 4 ((s.readReg y).1.toNat + 1)
    let f : Flags := { c := decide (r = 0#4), z := decide (r = 0#4), v := s.flags.v }
    decode (0x02#8 ++ y) = .inc y ∧
    (y ≠ 12#4 → y ≠ 13#4 → ∃ t, exec (.inc y) s = .next t ∧
      WroteCell s (regAddr y) r t ∧ t.flags = f ∧ t.pc = s.pc ∧ t.sp = s.sp) ∧
    (y = 13#4 → ∃ t, exec (.inc y) s = .next t ∧ Jumped s r t ∧ t.flags = f) ∧
    (y = 12#4 → s.sp.toNat < 5 → ∃ t, exec (.inc y) s = .next t ∧ Called s r t ∧ t.flags = f) ∧
    (y = 12#4 → 5 ≤ s.sp.toNat → exec (.inc y) s = .refused .stackOverflow)

/-- DEC RY (R174), with the jump and the call of R13 and R12 as the spec decides them (D4, D5, D6; log 12, 17). -/
def Obligations.DecrementResultFlagsFrame : Prop :=
  ∀ (y : Reg) (s : State),
    let r : Nibble := BitVec.ofNat 4 ((s.readReg y).1.toNat + 15)
    let f : Flags := { c := decide (r ≠ 15#4), z := decide (r = 0#4), v := s.flags.v }
    decode (0x03#8 ++ y) = .dec y ∧
    (y ≠ 12#4 → y ≠ 13#4 → ∃ t, exec (.dec y) s = .next t ∧
      WroteCell s (regAddr y) r t ∧ t.flags = f ∧ t.pc = s.pc ∧ t.sp = s.sp) ∧
    (y = 13#4 → ∃ t, exec (.dec y) s = .next t ∧ Jumped s r t ∧ t.flags = f) ∧
    (y = 12#4 → s.sp.toNat < 5 → ∃ t, exec (.dec y) s = .next t ∧ Called s r t ∧ t.flags = f) ∧
    (y = 12#4 → 5 ≤ s.sp.toNat → exec (.dec y) s = .refused .stackOverflow)

/-- DSZ RY (R175): no flag written, one word skipped where the result is 0; the refusal of R12 and R13 is the spec's
decision D3 (log 11). -/
def Obligations.DecrementAndSkipResultFrame : Prop :=
  ∀ (y : Reg) (s : State),
    let a := (s.readReg y).1
    decode (0x04#8 ++ y) = .dsz y ∧
    (y = 12#4 ∨ y = 13#4 → exec (.dsz y) s = .refused .triggerOther) ∧
    (y ≠ 12#4 → y ≠ 13#4 → ∃ t, exec (.dsz y) s = .next t ∧
      WroteCell s (regAddr y) (BitVec.ofNat 4 (a.toNat + 15)) t ∧ t.flags = s.flags ∧ t.sp = s.sp ∧
      t.pc = (if a.toNat = 1 then BitVec.ofNat 12 ((s.pc.toNat + 1) % 4096) else s.pc))

/-! ## EXR, bit instructions, RRC (44_exr_bit_rrc.md) -/

/-- EXR N (R191): pairs 0 to n - 1 exchanged, all other cells as before. The IN location in the range gives its
partner a draw (R60, decision D10; log 8); the refusal from 13 pairs on is decision D3 (log 11). -/
def Obligations.ExchangeSwapsThePairs : Prop :=
  ∀ (n : Nat) (s : State),
    (13 ≤ n → exec (.exr n) s = .refused .triggerOther) ∧
    (n ≤ 12 → ∃ t, exec (.exr n) s = .next t ∧
      (∀ k, k < n → (k = 11 → s.ioposSet) →
        t.cell (BitVec.ofNat 8 k) = s.cell (BitVec.ofNat 8 (0xE0 + k)) ∧
        t.cell (BitVec.ofNat 8 (0xE0 + k)) = s.cell (BitVec.ofNat 8 k)) ∧
      (n = 12 → ¬ s.ioposSet → t.cell 0xEB#8 = Config.draw s.draws) ∧
      (∀ a, (∀ k, k < n → a ≠ BitVec.ofNat 8 k ∧ a ≠ BitVec.ofNat 8 (0xE0 + k)) → t.cell a = s.cell a) ∧
      t.flags = s.flags ∧ t.pc = s.pc ∧ t.sp = s.sp ∧ t.prog = s.prog)

/-- Two EXR N in a row with the same N restore every cell where no port location is in the range (R191). -/
def Obligations.ExchangeTwiceRestores : Prop :=
  ∀ (n : Nat) (s : State), n ≤ 12 → (11 ≤ n → s.ioposSet) →
    ∃ t u, exec (.exr n) s = .next t ∧ exec (.exr n) t = .next u ∧
      (∀ a, u.cell a = s.cell a) ∧ u.flags = s.flags ∧ u.pc = s.pc ∧ u.sp = s.sp ∧ u.out = s.out

/-- BIT RG,M (R193): Z is the complement of the tested bit of R0, R1, R2 or, with G = 3, of the next value at the IN
location (R60, decision D10; log 7). -/
def Obligations.BitTestSetsZOnly : Prop :=
  ∀ (g : BitSel) (m : BitVec 2) (s : State),
    let v : Nibble := match g with
      | .r0 => s.cell 0x00#8
      | .r1 => s.cell 0x01#8
      | .r2 => s.cell 0x02#8
      | .rs => Config.draw s.draws
    ∃ t, exec (.bit g m) s = .next t ∧ WroteNothing s t ∧ t.pc = s.pc ∧ t.sp = s.sp ∧
      t.flags.c = s.flags.c ∧ t.flags.v = s.flags.v ∧
      (t.flags.z = true ↔ v.getLsbD m.toNat = false)

/-- BSET, BCLR, BTG RG,M (R194 to R196): one bit of R0, R1, R2 or, with G = 3, of the OUT location (R59, decision D10)
is set, cleared, toggled; the other three bits and everything else stay. -/
def Obligations.BitWritesChangeOneBit : Prop :=
  ∀ (g : BitSel) (m : BitVec 2) (s : State) (i : Instr) (b : Bool),
    let a : Addr := match g with
      | .r0 => 0x00#8
      | .r1 => 0x01#8
      | .r2 => 0x02#8
      | .rs => if (s.cell 0xF3#8).getLsbD 1 = true then 0xFA#8 else 0x0A#8
    (i = .bset g m ∧ b = true) ∨ (i = .bclr g m ∧ b = false) ∨
      (i = .btg g m ∧ b = !(s.cell a).getLsbD m.toNat) →
    ∃ t, exec i s = .next t ∧
      (∀ k, k < 4 → (t.cell a).getLsbD k = if k = m.toNat then b else (s.cell a).getLsbD k) ∧
      (∀ c, c ≠ a → t.cell c = s.cell c) ∧
      t.flags = s.flags ∧ t.pc = s.pc ∧ t.sp = s.sp ∧ t.prog = s.prog

/-- RRC RY (R197): the 5-bit rotation of the register and C; the refusal of R12 and R13 is decision D3 (log 11). -/
def Obligations.RotateRightThroughCarry : Prop :=
  ∀ (y : Reg) (s : State),
    let v := (s.readReg y).1
    decode (0x0D#8 ++ y) = .rrc y ∧
    (y = 12#4 ∨ y = 13#4 → exec (.rrc y) s = .refused .triggerOther) ∧
    (y ≠ 12#4 → y ≠ 13#4 → ∃ (t : State) (r : Nibble), exec (.rrc y) s = .next t ∧
      r.getLsbD 3 = s.flags.c ∧ r.getLsbD 2 = v.getLsbD 3 ∧ r.getLsbD 1 = v.getLsbD 2 ∧
      r.getLsbD 0 = v.getLsbD 1 ∧ WroteCell s (regAddr y) r t ∧ t.pc = s.pc ∧ t.sp = s.sp ∧
      t.flags.c = v.getLsbD 0 ∧ (t.flags.z = true ↔ r = 0#4) ∧ t.flags.v = s.flags.v)

/-- Five RRC in a row restore the register and C (R197, corner cases). -/
def Obligations.FiveRotationsRestore : Prop :=
  ∀ (y : Reg) (s : State), y ≠ 12#4 → y ≠ 13#4 → (y = 11#4 → s.ioposSet) →
    ∃ t1 t2 t3 t4 t5, exec (.rrc y) s = .next t1 ∧ exec (.rrc y) t1 = .next t2 ∧ exec (.rrc y) t2 = .next t3 ∧
      exec (.rrc y) t3 = .next t4 ∧ exec (.rrc y) t4 = .next t5 ∧
      (∀ a, t5.cell a = s.cell a) ∧ t5.flags.c = s.flags.c

/-! ## The whole machine -/

/-- 60_exceptions.md R242: exactly which forms are refused and by which name, each the spec's own decision (D3, D6, D11;
log 11, 12, 14, 15). -/
def Obligations.RefusedFormsAreExactlyTheListed : Prop :=
  ∀ (i : Instr) (s : State) (r : Refusal), exec i s = .refused r ↔
    let other (x : Reg) : Prop := (x = 12#4 ∨ x = 13#4) ∧ r = .triggerOther
    let full (x : Reg) : Prop := x = 12#4 ∧ 5 ≤ s.sp.toNat ∧ r = .stackOverflow
    let store (a : Addr) : Prop :=
      ((a = 0x0C#8 ∨ a = 0x0D#8) ∧ r = .triggerOther) ∨ (undocumentedAddr a ∧ r = .sfrNotInSource)
    let load (a : Addr) : Prop := (a = 0xF3#8 ∧ r = .wrflagsRead) ∨ (undocumentedAddr a ∧ r = .sfrNotInSource)
    match i with
    | .addXY x _ => other x
    | .adcXY x _ => other x
    | .subXY x _ => other x
    | .sbbXY x _ => other x
    | .orXY x _ => other x
    | .andXY x _ => other x
    | .xorXY x _ => other x
    | .dsz y => other y
    | .rrc y => other y
    | .exr n => 13 ≤ n ∧ r = .triggerOther
    | .movXY x _ => full x
    | .movXN x _ => full x
    | .inc y => full y
    | .dec y => full y
    | .storeXY x y => store (s.pairOperand x y)
    | .storeNN nn => store nn
    | .loadXY x y => load (s.pairOperand x y)
    | .loadNN nn => load nn
    | .ret _ => s.sp = 0#3 ∧ r = .stackUnderflow
    | _ => False

/-- R28: how each instruction leaves PC, `s.pc` the address after the instruction; the target of a jump and of a call is the
spec's decision (D4, D5; log 17). -/
def Obligations.ProgramCounterAfterEveryInstruction : Prop :=
  ∀ (i : Instr) (s t : State), exec i s = .next t →
    let trigger (r : Reg) (v : Nibble) : ProgAddr :=
      if r = 13#4 ∨ r = 12#4 then s.cell 0x0F#8 ++ s.cell 0x0E#8 ++ v else s.pc
    t.pc = match i with
      | .jr nn => s.pc + nn.signExtend 12
      | .dsz y => if (s.readReg y).1 - 1#4 = 0#4 then s.pc + 1#12 else s.pc
      | .skip f n => if condHolds f s.flags = true then s.pc + BitVec.ofNat 12 n else s.pc
      | .ret _ => s.cell (entryCell (s.sp.toNat - 1) 2) ++ s.cell (entryCell (s.sp.toNat - 1) 1) ++
          s.cell (entryCell (s.sp.toNat - 1) 0)
      | .movXY x y => trigger x (s.readReg y).1
      | .movXN x n => trigger x n
      | .inc y => trigger y ((s.readReg y).1 + 1#4)
      | .dec y => trigger y ((s.readReg y).1 - 1#4)
      | _ => s.pc

/-- R31: SP changes by a call and by RET only, one level at a time (the stack's form is decision D6; log 12). -/
def Obligations.StackPointerMovesByCallAndReturnOnly : Prop :=
  ∀ (i : Instr) (s t : State), exec i s = .next t →
    match i with
    | .movXY x _ => t.sp = if x = 12#4 then s.sp + 1#3 else s.sp
    | .movXN x _ => t.sp = if x = 12#4 then s.sp + 1#3 else s.sp
    | .inc y => t.sp = if y = 12#4 then s.sp + 1#3 else s.sp
    | .dec y => t.sp = if y = 12#4 then s.sp + 1#3 else s.sp
    | .ret _ => t.sp = s.sp - 1#3
    | _ => t.sp = s.sp

/-- R29, R13 (decision D2; log 19): an instruction keeps every flag it does not name. -/
def Obligations.UnnamedFlagsAreKept : Prop :=
  ∀ (i : Instr) (s t : State), exec i s = .next t →
    match i with
    | .addXY _ _ => True
    | .adcXY _ _ => True
    | .subXY _ _ => True
    | .sbbXY _ _ => True
    | .orXY _ _ => t.flags.c = s.flags.c ∧ t.flags.v = s.flags.v
    | .andXY _ _ => t.flags.c = s.flags.c ∧ t.flags.v = s.flags.v
    | .xorXY _ _ => t.flags.c = s.flags.c ∧ t.flags.v = s.flags.v
    | .cpN _ => t.flags.v = s.flags.v
    | .addN _ => t.flags.v = s.flags.v
    | .inc _ => t.flags.v = s.flags.v
    | .dec _ => t.flags.v = s.flags.v
    | .orN _ => t.flags.v = s.flags.v
    | .andN _ => t.flags.v = s.flags.v
    | .xorN _ => t.flags.v = s.flags.v
    | .rrc _ => t.flags.v = s.flags.v
    | .bit _ _ => t.flags.c = s.flags.c ∧ t.flags.v = s.flags.v
    | _ => t.flags = s.flags

/-- The frame of every instruction over data memory: a cell that is none of the cells R53 says the instruction writes
reads as before. -/
def Obligations.CellsNotWrittenAreKept : Prop :=
  ∀ (i : Instr) (s t : State), exec i s = .next t → ∀ a, a ∉ writtenCells i s → t.cell a = s.cell a

/-- The output events of every instruction (20_memory.md R59, decision D10; log 9): one, the OUT location's new content,
where the instruction writes the OUT location, and none otherwise. -/
def Obligations.OutputEventsOfEveryInstruction : Prop :=
  ∀ (i : Instr) (s t : State), exec i s = .next t →
    let o : Addr := if (s.cell 0xF3#8).getLsbD 1 = true then 0xFA#8 else 0x0A#8
    (o ∈ writtenCells i s → t.out = s.out ++ [t.cell o]) ∧ (o ∉ writtenCells i s → t.out = s.out)

/-- R68: no step changes program memory. -/
def Obligations.StepKeepsProgramMemory : Prop :=
  ∀ s t : State, step s = .next t → t.prog = s.prog

/-- WRFLAGS changes only by a memory move to 0xF3, so IOPOS is under the program's control alone (20_memory.md R58; 10_state.md R33);
the 13 other cells of page 15 never change (R62, decision D11; log 15). -/
def Obligations.ControlCellsChangeOnlyByStores : Prop :=
  ∀ (i : Instr) (s t : State), exec i s = .next t →
    (∀ a, undocumentedAddr a → t.cell a = s.cell a) ∧
    (t.cell 0xF3#8 ≠ s.cell 0xF3#8 →
      (∃ x y, i = .storeXY x y ∧ s.pairOperand x y = 0xF3#8) ∨ i = .storeNN 0xF3#8)

/-- R30: V is read by no instruction. Two states that differ in V alone are refused alike and step to states that
differ in V alone. -/
def Obligations.NoInstructionReadsV : Prop :=
  ∀ (i : Instr) (s : State) (b : Bool),
    let s' : State := { s with flags := { s.flags with v := b } }
    (∀ t, exec i s = .next t → ∃ t', exec i s' = .next t' ∧
      { t' with flags := { t'.flags with v := t.flags.v } } = t) ∧
    (∀ r, exec i s = .refused r ↔ exec i s' = .refused r)

/-- Every step keeps the invariant: both memories in canonical form and inside the address spaces (20_memory.md R50), SP a
legal value (10_state.md R31, decision D6). The canonical form is the model's choice (log 22). -/
def Obligations.EveryStepKeepsTheInvariant : Prop :=
  ∀ s t : State, s.Inv → step s = .next t → t.Inv

/-- The state after reset meets the invariant; which cells it lists is the model's choice (DESIGN CHOICE; log 1, 2, 6). -/
def Obligations.ResetMeetsTheInvariant : Prop := State.reset.Inv

/-- After reset PC is RESET_PC at its default 0x000 (R260, decision D18; log 4), SP is at level 0 (R261, decision D19) and
nothing has been emitted (R264). The registers and flags, which the spec leaves unspecified, are named 0 by the model
(DESIGN CHOICE; log 1, 2, 3), and no statement rests on it. -/
def Obligations.ResetStartsAtLevelZero : Prop :=
  State.reset.pc = 0x000#12 ∧ State.reset.sp = 0#3 ∧ State.reset.out = []
end

