-- ==== Sys2Proof/Laws/Memory.lean ====
section
/-! SUPPORT. The laws of a memory: a read after a write, and the canonical form that every write keeps. -/
namespace Sys2Proof.Machine

variable {w : Nat}

theorem Memory.read?_write_same (m : Memory w) (a : Nat) (v : BitVec w) : (m.write a v).read? a = some v := by
  induction m with
  | nil => simp [Memory.write, Memory.read?]
  | cons cell rest ih =>
    obtain ⟨k, u⟩ := cell
    by_cases h1 : a < k
    · simp [Memory.write, Memory.read?, h1]
    · by_cases h2 : a = k
      · simp [Memory.write, Memory.read?, h2]
      · simp [Memory.write, Memory.read?, h1, h2, Ne.symm h2, ih]

theorem Memory.read?_write_other (m : Memory w) {a b : Nat} (v : BitVec w) (h : b ≠ a) :
    (m.write a v).read? b = m.read? b := by
  induction m with
  | nil => simp [Memory.write, Memory.read?, Ne.symm h]
  | cons cell rest ih =>
    obtain ⟨k, u⟩ := cell
    by_cases h1 : a < k
    · simp [Memory.write, Memory.read?, h1, Ne.symm h]
    · by_cases h2 : a = k
      · subst h2; simp [Memory.write, Memory.read?, Ne.symm h]
      · simp [Memory.write, Memory.read?, h1, h2, ih]

/-- A write adds no entry but at its own address. -/
theorem Memory.mem_write {m : Memory w} {a : Nat} {v : BitVec w} {cell : Nat × BitVec w}
    (h : cell ∈ m.write a v) : cell = (a, v) ∨ cell ∈ m := by
  induction m with
  | nil => simpa [Memory.write] using h
  | cons head rest ih =>
    obtain ⟨k, u⟩ := head
    simp only [Memory.write] at h
    split at h
    · simpa using h
    · split at h
      · rcases List.mem_cons.1 h with h | h
        · exact .inl h
        · exact .inr (List.mem_cons_of_mem _ h)
      · rcases List.mem_cons.1 h with h | h
        · exact .inr (h ▸ List.mem_cons_self ..)
        · exact (ih h).imp id (List.mem_cons_of_mem _)

/-- Every write inside the address space keeps the canonical form. -/
theorem Memory.write_wf {size a : Nat} (m : Memory w) (v : BitVec w) (ha : a < size)
    (h : m.wf size = true) : (m.write a v).wf size = true := by
  induction m with
  | nil => simp [Memory.write, Memory.wf, ha]
  | cons head rest ih =>
    obtain ⟨k, u⟩ := head
    simp only [Memory.wf, Bool.and_eq_true, decide_eq_true_eq, List.all_eq_true] at h
    obtain ⟨⟨hk, hall⟩, hrest⟩ := h
    simp only [Memory.write]
    split
    · next hlt =>
      simp only [Memory.wf, Bool.and_eq_true, decide_eq_true_eq, List.all_eq_true]
      refine ⟨⟨ha, fun c hc => ?_⟩, ⟨hk, hall⟩, hrest⟩
      rcases List.mem_cons.1 hc with rfl | hc
      · exact hlt
      · exact hlt.trans (hall c hc)
    · split
      · next heq =>
        subst heq
        simp only [Memory.wf, Bool.and_eq_true, decide_eq_true_eq, List.all_eq_true]
        exact ⟨⟨ha, hall⟩, hrest⟩
      · next hlt hne =>
        simp only [Memory.wf, Bool.and_eq_true, decide_eq_true_eq, List.all_eq_true]
        refine ⟨⟨hk, fun c hc => ?_⟩, ih hrest⟩
        rcases Memory.mem_write hc with rfl | hc
        · exact lt_of_le_of_ne (not_lt.1 hlt) (Ne.symm hne)
        · exact hall c hc

end Sys2Proof.Machine
end

