-- ==== Sys2Proof/Laws/State.lean ====
section
/-!
SUPPORT. One lemma per field per update of `State`, each true by `rfl`, so that no proof unfolds a record update.
-/
namespace Sys2Proof.Machine

variable (s : State)

@[simp] theorem State.setPc_mem (p : ProgAddr) : (s.setPc p).mem = s.mem := rfl
@[simp] theorem State.setPc_prog (p : ProgAddr) : (s.setPc p).prog = s.prog := rfl
@[simp] theorem State.setPc_pc (p : ProgAddr) : (s.setPc p).pc = p := rfl
@[simp] theorem State.setPc_sp (p : ProgAddr) : (s.setPc p).sp = s.sp := rfl
@[simp] theorem State.setPc_flags (p : ProgAddr) : (s.setPc p).flags = s.flags := rfl
@[simp] theorem State.setPc_out (p : ProgAddr) : (s.setPc p).out = s.out := rfl
@[simp] theorem State.setPc_draws (p : ProgAddr) : (s.setPc p).draws = s.draws := rfl

@[simp] theorem State.setSp_mem (p : BitVec 3) : (s.setSp p).mem = s.mem := rfl
@[simp] theorem State.setSp_prog (p : BitVec 3) : (s.setSp p).prog = s.prog := rfl
@[simp] theorem State.setSp_pc (p : BitVec 3) : (s.setSp p).pc = s.pc := rfl
@[simp] theorem State.setSp_sp (p : BitVec 3) : (s.setSp p).sp = p := rfl
@[simp] theorem State.setSp_flags (p : BitVec 3) : (s.setSp p).flags = s.flags := rfl
@[simp] theorem State.setSp_out (p : BitVec 3) : (s.setSp p).out = s.out := rfl
@[simp] theorem State.setSp_draws (p : BitVec 3) : (s.setSp p).draws = s.draws := rfl

@[simp] theorem State.setFlags_mem (f : Flags) : (s.setFlags f).mem = s.mem := rfl
@[simp] theorem State.setFlags_prog (f : Flags) : (s.setFlags f).prog = s.prog := rfl
@[simp] theorem State.setFlags_pc (f : Flags) : (s.setFlags f).pc = s.pc := rfl
@[simp] theorem State.setFlags_sp (f : Flags) : (s.setFlags f).sp = s.sp := rfl
@[simp] theorem State.setFlags_flags (f : Flags) : (s.setFlags f).flags = f := rfl
@[simp] theorem State.setFlags_out (f : Flags) : (s.setFlags f).out = s.out := rfl
@[simp] theorem State.setFlags_draws (f : Flags) : (s.setFlags f).draws = s.draws := rfl

@[simp] theorem State.setCell_mem (a : Addr) (v : Nibble) : (s.setCell a v).mem = s.mem.write a.toNat v := rfl
@[simp] theorem State.setCell_prog (a : Addr) (v : Nibble) : (s.setCell a v).prog = s.prog := rfl
@[simp] theorem State.setCell_pc (a : Addr) (v : Nibble) : (s.setCell a v).pc = s.pc := rfl
@[simp] theorem State.setCell_sp (a : Addr) (v : Nibble) : (s.setCell a v).sp = s.sp := rfl
@[simp] theorem State.setCell_flags (a : Addr) (v : Nibble) : (s.setCell a v).flags = s.flags := rfl
@[simp] theorem State.setCell_out (a : Addr) (v : Nibble) : (s.setCell a v).out = s.out := rfl
@[simp] theorem State.setCell_draws (a : Addr) (v : Nibble) : (s.setCell a v).draws = s.draws := rfl

@[simp] theorem State.emit_mem (v : Nibble) : (s.emit v).mem = s.mem := rfl
@[simp] theorem State.emit_prog (v : Nibble) : (s.emit v).prog = s.prog := rfl
@[simp] theorem State.emit_pc (v : Nibble) : (s.emit v).pc = s.pc := rfl
@[simp] theorem State.emit_sp (v : Nibble) : (s.emit v).sp = s.sp := rfl
@[simp] theorem State.emit_flags (v : Nibble) : (s.emit v).flags = s.flags := rfl
@[simp] theorem State.emit_out (v : Nibble) : (s.emit v).out = s.out ++ [v] := rfl
@[simp] theorem State.emit_draws (v : Nibble) : (s.emit v).draws = s.draws := rfl

@[simp] theorem State.drawn_mem : (s.drawn).mem = s.mem := rfl
@[simp] theorem State.drawn_prog : (s.drawn).prog = s.prog := rfl
@[simp] theorem State.drawn_pc : (s.drawn).pc = s.pc := rfl
@[simp] theorem State.drawn_sp : (s.drawn).sp = s.sp := rfl
@[simp] theorem State.drawn_flags : (s.drawn).flags = s.flags := rfl
@[simp] theorem State.drawn_out : (s.drawn).out = s.out := rfl
@[simp] theorem State.drawn_draws : (s.drawn).draws = s.draws + 1 := rfl

end Sys2Proof.Machine
end

