-- ==== Sys2Proof/Laws/Ops.lean ====
section
/-!
SUPPORT. What each shared operation over data memory, registers and the stack can do, said once; the proofs about
instructions cite these and unfold no operation.
-/
namespace Sys2Proof.Machine

variable (s : State)

/-! ## Reading one cell -/

@[simp] theorem State.cell_setPc (p : ProgAddr) (a : Addr) : (s.setPc p).cell a = s.cell a := rfl
@[simp] theorem State.cell_setSp (p : BitVec 3) (a : Addr) : (s.setSp p).cell a = s.cell a := rfl
@[simp] theorem State.cell_setFlags (f : Flags) (a : Addr) : (s.setFlags f).cell a = s.cell a := rfl
@[simp] theorem State.cell_emit (v : Nibble) (a : Addr) : (s.emit v).cell a = s.cell a := rfl
@[simp] theorem State.cell_drawn (a : Addr) : s.drawn.cell a = s.cell a := rfl

@[simp] theorem State.cell_setCell_same (a : Addr) (v : Nibble) : (s.setCell a v).cell a = v := by
  simp [State.cell, Memory.read?_write_same]

theorem State.cell_setCell_other {a b : Addr} (v : Nibble) (h : b ≠ a) :
    (s.setCell a v).cell b = s.cell b := by
  have : b.toNat ≠ a.toNat := fun e => h (BitVec.eq_of_toNat_eq e)
  simp [State.cell, Memory.read?_write_other _ _ this]

/-! ## The special cells -/

theorem State.iopos_iff : s.iopos = true ↔ s.ioposSet := Iff.rfl

theorem State.isInput_iff (a : Addr) : s.isInput a = true ↔ s.inputCell a := by
  simp only [State.isInput, State.inAddr, State.inputCell, ← State.iopos_iff]
  cases s.iopos <;> simp [or_comm]

theorem State.isInput_false_iff (a : Addr) : s.isInput a = false ↔ ¬ s.inputCell a := by
  rw [← s.isInput_iff a]; simp

theorem State.outAddr_iff (a : Addr) : a = s.outAddr ↔ s.outputCell a := by
  simp only [State.outAddr, State.outputCell, ← State.iopos_iff]
  cases s.iopos <;> simp

theorem State.not_inputCell_of {a : Addr} (h1 : a ≠ 0xFB#8) (h2 : a ≠ 0x0B#8) : ¬ s.inputCell a := by
  rintro (h | ⟨h, -⟩)
  · exact h1 h
  · exact h2 h

theorem State.not_outputCell_of {a : Addr} (h1 : a ≠ 0xFA#8) (h2 : a ≠ 0x0A#8) : ¬ s.outputCell a := by
  rintro (⟨h, -⟩ | ⟨h, -⟩)
  · exact h1 h
  · exact h2 h

theorem State.not_input_of_output {a : Addr} (h : s.outputCell a) : ¬ s.inputCell a := by
  rcases h with ⟨rfl, -⟩ | ⟨rfl, -⟩ <;> exact s.not_inputCell_of (by decide) (by decide)

/-! ## A read (R60, R63) -/

theorem State.memRead_input {a : Addr} (h : s.inputCell a) : s.memRead a = (Config.draw s.draws, s.drawn) := by
  simp [State.memRead, (s.isInput_iff a).2 h]

theorem State.memRead_plain {a : Addr} (h : ¬ s.inputCell a) : s.memRead a = (s.cell a, s) := by
  simp [State.memRead, (s.isInput_false_iff a).2 h]

/-- A read leaves the state, or counts one draw. -/
theorem State.memRead_state (a : Addr) : (s.memRead a).2 = s ∨ (s.memRead a).2 = s.drawn := by
  unfold State.memRead; split <;> simp

@[simp] theorem State.memRead_cell (a b : Addr) : (s.memRead a).2.cell b = s.cell b := by
  rcases s.memRead_state a with h | h <;> simp [h]
@[simp] theorem State.memRead_mem (a : Addr) : (s.memRead a).2.mem = s.mem := by
  rcases s.memRead_state a with h | h <;> simp [h]
@[simp] theorem State.memRead_prog (a : Addr) : (s.memRead a).2.prog = s.prog := by
  rcases s.memRead_state a with h | h <;> simp [h]
@[simp] theorem State.memRead_pc (a : Addr) : (s.memRead a).2.pc = s.pc := by
  rcases s.memRead_state a with h | h <;> simp [h]
@[simp] theorem State.memRead_sp (a : Addr) : (s.memRead a).2.sp = s.sp := by
  rcases s.memRead_state a with h | h <;> simp [h]
@[simp] theorem State.memRead_flags (a : Addr) : (s.memRead a).2.flags = s.flags := by
  rcases s.memRead_state a with h | h <;> simp [h]
@[simp] theorem State.memRead_out (a : Addr) : (s.memRead a).2.out = s.out := by
  rcases s.memRead_state a with h | h <;> simp [h]

theorem State.readReg_eq (r : Reg) : s.readReg r = s.memRead (regAddr r) := rfl
theorem State.writeReg_eq (r : Reg) (v : Nibble) : s.writeReg r v = s.memWrite (regAddr r) v := rfl

@[simp] theorem State.readReg_cell (r : Reg) (b : Addr) : (s.readReg r).2.cell b = s.cell b := s.memRead_cell _ b
@[simp] theorem State.readReg_mem (r : Reg) : (s.readReg r).2.mem = s.mem := s.memRead_mem _
@[simp] theorem State.readReg_prog (r : Reg) : (s.readReg r).2.prog = s.prog := s.memRead_prog _
@[simp] theorem State.readReg_pc (r : Reg) : (s.readReg r).2.pc = s.pc := s.memRead_pc _
@[simp] theorem State.readReg_sp (r : Reg) : (s.readReg r).2.sp = s.sp := s.memRead_sp _
@[simp] theorem State.readReg_flags (r : Reg) : (s.readReg r).2.flags = s.flags := s.memRead_flags _
@[simp] theorem State.readReg_out (r : Reg) : (s.readReg r).2.out = s.out := s.memRead_out _

/-- A register other than the IN location reads as its cell, with no effect on the state (R23). -/
theorem State.readReg_plain {r : Reg} (h : ¬ s.inputCell (regAddr r)) : s.readReg r = (s.cell (regAddr r), s) :=
  s.memRead_plain h

theorem State.readReg_r0 : s.readReg 0#4 = (s.cell 0x00#8, s) :=
  s.memRead_plain (s.not_inputCell_of (by decide) (by decide))

/-! ## A write (R59, R60, R63) -/

@[simp] theorem State.memWrite_prog (a : Addr) (v : Nibble) : (s.memWrite a v).prog = s.prog := by
  unfold State.memWrite; split <;> [rfl; (split <;> rfl)]
@[simp] theorem State.memWrite_pc (a : Addr) (v : Nibble) : (s.memWrite a v).pc = s.pc := by
  unfold State.memWrite; split <;> [rfl; (split <;> rfl)]
@[simp] theorem State.memWrite_sp (a : Addr) (v : Nibble) : (s.memWrite a v).sp = s.sp := by
  unfold State.memWrite; split <;> [rfl; (split <;> rfl)]
@[simp] theorem State.memWrite_flags (a : Addr) (v : Nibble) : (s.memWrite a v).flags = s.flags := by
  unfold State.memWrite; split <;> [rfl; (split <;> rfl)]

theorem State.memWrite_cell_other {a b : Addr} (v : Nibble) (h : b ≠ a) : (s.memWrite a v).cell b = s.cell b := by
  unfold State.memWrite
  split
  · simp [s.cell_setCell_other _ h]
  · split <;> simp [s.cell_setCell_other _ h]

theorem State.memWrite_cell_same {a : Addr} (v : Nibble) (h : ¬ s.inputCell a) : (s.memWrite a v).cell a = v := by
  unfold State.memWrite
  rw [(s.isInput_false_iff a).2 h]
  simp only [Bool.false_eq_true, if_false]
  split <;> simp

theorem State.memWrite_out (a : Addr) (v : Nibble) :
    (s.memWrite a v).out = s.out ++ (if s.outputCell a then [v] else []) := by
  unfold State.memWrite
  by_cases hi : s.inputCell a
  · have ho : ¬ s.outputCell a := fun ho => s.not_input_of_output ho hi
    rw [(s.isInput_iff a).2 hi, if_neg ho]
    simp
  · rw [(s.isInput_false_iff a).2 hi]
    simp only [Bool.false_eq_true, if_false]
    by_cases ho : s.outputCell a
    · rw [if_pos ((s.outAddr_iff a).2 ho), if_pos ho]; simp
    · rw [if_neg (fun e => ho ((s.outAddr_iff a).1 e)), if_neg ho]; simp

/-- Everything one write does. -/
theorem State.memWrite_wrote (a : Addr) (v : Nibble) : WroteCell s a v (s.memWrite a v) where
  stored := s.memWrite_cell_same v
  kept := fun _ h => s.memWrite_cell_other v h
  image := s.memWrite_prog a v

theorem State.memWrite_mem (a : Addr) (v : Nibble) : ∃ u, (s.memWrite a v).mem = s.mem.write a.toNat u := by
  unfold State.memWrite
  split
  · exact ⟨_, rfl⟩
  · split <;> exact ⟨_, rfl⟩

/-- Every write keeps the canonical form of data memory. -/
theorem State.memWrite_wf (a : Addr) (v : Nibble) (h : s.mem.wf 256 = true) : (s.memWrite a v).mem.wf 256 = true := by
  obtain ⟨u, hu⟩ := s.memWrite_mem a v
  rw [hu]
  exact Memory.write_wf _ _ a.isLt h

theorem State.writeReg_wrote (r : Reg) (v : Nibble) : WroteCell s (regAddr r) v (s.writeReg r v) :=
  s.memWrite_wrote _ v

@[simp] theorem State.writeReg_prog (r : Reg) (v : Nibble) : (s.writeReg r v).prog = s.prog := s.memWrite_prog _ v
@[simp] theorem State.writeReg_pc (r : Reg) (v : Nibble) : (s.writeReg r v).pc = s.pc := s.memWrite_pc _ v
@[simp] theorem State.writeReg_sp (r : Reg) (v : Nibble) : (s.writeReg r v).sp = s.sp := s.memWrite_sp _ v
@[simp] theorem State.writeReg_flags (r : Reg) (v : Nibble) : (s.writeReg r v).flags = s.flags := s.memWrite_flags _ v

/-! ## What a write relation carries across an update of another field -/

theorem WroteCell.congr_left {s s' : State} {a : Addr} {v : Nibble} {t : State} (h : WroteCell s' a v t)
    (hm : ∀ b, s'.cell b = s.cell b) (hp : s'.prog = s.prog) : WroteCell s a v t where
  stored := fun hi => h.stored (by simpa [hm] using hi)
  kept := fun b hb => (h.kept b hb).trans (hm b)
  image := h.image.trans hp

theorem WroteCell.congr_right {s : State} {a : Addr} {v : Nibble} {t t' : State} (h : WroteCell s a v t)
    (hm : ∀ b, t'.cell b = t.cell b) (hp : t'.prog = t.prog) : WroteCell s a v t' where
  stored := fun hi => (hm a).trans (h.stored hi)
  kept := fun b hb => (hm b).trans (h.kept b hb)
  image := hp.trans h.image

/-! ## Jump, call, return (R152 to R155, R211) -/

theorem stackCell_eq (k : BitVec 3) : stackCell k = entryCell k.toNat 0 := by
  revert k; decide

theorem stackCell_add1 (k : BitVec 3) : stackCell k + 1#8 = entryCell k.toNat 1 := by
  revert k; decide

theorem stackCell_add2 (k : BitVec 3) : stackCell k + 2#8 = entryCell k.toNat 2 := by
  revert k; decide

/-- The stack lies in cells that are plain, are no register and are not WRFLAGS. -/
theorem stackCell_range (k : BitVec 3) :
    0x10 ≤ (stackCell k).toNat ∧ (stackCell k + 1#8).toNat = (stackCell k).toNat + 1 ∧
      (stackCell k + 2#8).toNat = (stackCell k).toNat + 2 ∧ (stackCell k).toNat ≤ 0x25 := by
  revert k; decide

theorem State.jump_jumped (v : Nibble) : Jumped s v ((s.writeReg 13#4 v).jump v) where
  wrote := (s.writeReg_wrote 13#4 v).congr_right (fun _ => rfl) rfl
  target := by
    have h := s.writeReg_wrote 13#4 v
    simp only [State.jump, State.setPc_pc, State.target, h.kept 0x0F#8 (by decide), h.kept 0x0E#8 (by decide)]
  level := by simp [State.jump]

/-- What a push does to one cell. -/
theorem State.push_cell (ra : ProgAddr) (b : Addr) :
    (s.push ra).cell b =
      if b = stackCell s.sp + 2#8 then ra.extractLsb' 8 4
      else if b = stackCell s.sp + 1#8 then ra.extractLsb' 4 4
      else if b = stackCell s.sp then ra.extractLsb' 0 4
      else s.cell b := by
  have hr := stackCell_range s.sp
  have hplain : ∀ (u : State) (c : Addr), 0x10 ≤ c.toNat → c.toNat ≤ 0x30 → ¬ u.inputCell c := fun u c h1 h2 =>
    u.not_inputCell_of (by rintro rfl; simp at h2) (by rintro rfl; simp at h1)
  simp only [State.push, State.cell_setSp]
  by_cases h2 : b = stackCell s.sp + 2#8
  · rw [if_pos h2, h2, State.memWrite_cell_same _ _ (hplain _ _ (by omega) (by omega))]
  · rw [if_neg h2, State.memWrite_cell_other _ _ h2]
    by_cases h1 : b = stackCell s.sp + 1#8
    · rw [if_pos h1, h1, State.memWrite_cell_same _ _ (hplain _ _ (by omega) (by omega))]
    · rw [if_neg h1, State.memWrite_cell_other _ _ h1]
      by_cases h0 : b = stackCell s.sp
      · rw [if_pos h0, h0, State.memWrite_cell_same _ _ (hplain _ _ (by omega) (by omega))]
      · rw [if_neg h0, State.memWrite_cell_other _ _ h0]

@[simp] theorem State.push_sp (ra : ProgAddr) : (s.push ra).sp = s.sp + 1#3 := rfl
@[simp] theorem State.push_flags (ra : ProgAddr) : (s.push ra).flags = s.flags := by simp [State.push]
@[simp] theorem State.push_prog (ra : ProgAddr) : (s.push ra).prog = s.prog := by simp [State.push]

theorem State.push_out (ra : ProgAddr) : (s.push ra).out = s.out := by
  have hr := stackCell_range s.sp
  have hplain : ∀ (u : State) (c : Addr), 0x10 ≤ c.toNat → c.toNat ≤ 0x30 → ¬ u.outputCell c := fun u c h1 h2 =>
    u.not_outputCell_of (by rintro rfl; simp at h2) (by rintro rfl; simp at h1)
  simp only [State.push, State.setSp_out, State.memWrite_out]
  rw [if_neg (hplain _ _ (by omega) (by omega)), if_neg (hplain _ _ (by omega) (by omega)),
    if_neg (hplain _ _ (by omega) (by omega))]
  simp

theorem State.push_wf (ra : ProgAddr) (h : s.mem.wf 256 = true) : (s.push ra).mem.wf 256 = true := by
  simp only [State.push, State.setSp_mem]
  exact State.memWrite_wf _ _ _ (State.memWrite_wf _ _ _ (State.memWrite_wf _ _ _ h))

theorem sp_succ {p : BitVec 3} (h : ¬ stackDepth ≤ p) : (p + 1#3).toNat = p.toNat + 1 ∧ p + 1#3 ≤ 5#3 := by
  revert p; decide

theorem State.call_called (v : Nibble) (h : ¬ stackDepth ≤ s.sp) : Called s v ((s.writeReg 12#4 v).call v) := by
  have hw := s.writeReg_wrote 12#4 v
  have hr := stackCell_range s.sp
  have hcell : ∀ b, ((s.writeReg 12#4 v).call v).cell b =
      if b = stackCell s.sp + 2#8 then s.pc.extractLsb' 8 4
      else if b = stackCell s.sp + 1#8 then s.pc.extractLsb' 4 4
      else if b = stackCell s.sp then s.pc.extractLsb' 0 4
      else (s.writeReg 12#4 v).cell b := fun b => by
    simp only [State.call, State.cell_setPc, State.push_cell, State.writeReg_sp, State.writeReg_pc]
  have ne : ∀ {a b : Addr}, a.toNat ≠ b.toNat → a ≠ b := fun h e => h (congrArg BitVec.toNat e)
  have e0 : stackCell s.sp ≠ stackCell s.sp + 1#8 := ne (by omega)
  have e1 : stackCell s.sp ≠ stackCell s.sp + 2#8 := ne (by omega)
  have e2 : stackCell s.sp + 1#8 ≠ stackCell s.sp + 2#8 := ne (by omega)
  have e12 : ∀ c : Addr, 0x10 ≤ c.toNat → (0x0C#8 : Addr) ≠ c := fun c hc => ne (by simp; omega)
  refine ⟨?_, ?_, ?_, ?_, ?_, ?_, ?_, ?_⟩
  · rw [hcell, if_neg (e12 _ (by omega)), if_neg (e12 _ (by omega)), if_neg (e12 _ (by omega))]
    exact hw.stored (s.not_inputCell_of (by decide) (by decide))
  · rw [← stackCell_eq, hcell, if_neg e1, if_neg e0, if_pos rfl]
  · rw [← stackCell_add1, hcell, if_neg e2, if_pos rfl]
  · rw [← stackCell_add2, hcell, if_pos rfl]
  · intro b hb h0 h1 h2
    rw [← stackCell_eq] at h0
    rw [← stackCell_add1] at h1
    rw [← stackCell_add2] at h2
    rw [hcell, if_neg h2, if_neg h1, if_neg h0]
    exact hw.kept b hb
  · simpa [State.call] using (sp_succ h).1
  · simp only [State.call, State.setPc_pc, State.target, hw.kept 0x0F#8 (by decide), hw.kept 0x0E#8 (by decide)]
  · simp [State.call]

/-- Everything the register write with the trigger can do. -/
theorem State.writeTrigger_cases {r : Reg} {v : Nibble} {t : State} (h : s.writeTrigger r v = .next t) :
    (r = 13#4 ∧ t = (s.writeReg 13#4 v).jump v) ∨
    (r = 12#4 ∧ ¬ stackDepth ≤ s.sp ∧ t = (s.writeReg 12#4 v).call v) ∨
    (r ≠ 13#4 ∧ r ≠ 12#4 ∧ t = s.writeReg r v) := by
  unfold State.writeTrigger at h
  split at h
  · next e => subst e; cases h; exact .inl ⟨rfl, rfl⟩
  · next n13 =>
    split at h
    · next e =>
      subst e
      split at h
      · cases h
      · next hd => cases h; exact .inr (.inl ⟨rfl, hd, rfl⟩)
    · next n12 => cases h; exact .inr (.inr ⟨n13, n12, rfl⟩)

@[simp] theorem State.pop_flags : s.pop.flags = s.flags := rfl
@[simp] theorem State.pop_cell (b : Addr) : s.pop.cell b = s.cell b := rfl
@[simp] theorem State.pop_out : s.pop.out = s.out := rfl
@[simp] theorem State.pop_prog : s.pop.prog = s.prog := rfl
@[simp] theorem State.pop_mem : s.pop.mem = s.mem := rfl
@[simp] theorem State.pop_sp : s.pop.sp = s.sp - 1#3 := rfl
@[simp] theorem State.pop_pc : s.pop.pc = s.stackEntry (s.sp - 1#3) := rfl

end Sys2Proof.Machine
end

