-- ==== Sys2Proof/Laws/Operands.lean ====
section
/-!
SUPPORT. What each shape that several instructions share answers, said once: the two-register form, the literal form
on R0, the register write with the trigger, the explicit accesses of the memory moves, the read-modify-write of one
bit cell, and the exchange of pairs.
-/
namespace Sys2Proof.Machine

variable (s : State)

theorem isTriggerReg_iff (r : Reg) : isTriggerReg r = true ↔ r = 12#4 ∨ r = 13#4 := by
  simp [isTriggerReg]

theorem isTriggerReg_false {r : Reg} (h12 : r ≠ 12#4) (h13 : r ≠ 13#4) : isTriggerReg r = false := by
  simp [isTriggerReg, h12, h13]

/-! ## Two-register and literal forms -/

theorem execRR_next (alu : Nibble → Nibble → Flags → Nibble × Flags) {x : Reg} (y : Reg) (h12 : x ≠ 12#4)
    (h13 : x ≠ 13#4) :
    ∃ t, execRR alu x y s = .next t ∧
      WroteCell s (regAddr x) (alu (s.readReg x).1 ((s.readReg x).2.readReg y).1 s.flags).1 t ∧
      t.flags = (alu (s.readReg x).1 ((s.readReg x).2.readReg y).1 s.flags).2 ∧ t.pc = s.pc ∧ t.sp = s.sp := by
  refine ⟨_, by rw [execRR, isTriggerReg_false h12 h13]; rfl, ?_, rfl, by simp, by simp⟩
  exact ((State.writeReg_wrote _ x _).congr_left (by simp) (by simp)).congr_right (fun _ => rfl) rfl

theorem execRR_refused (alu : Nibble → Nibble → Flags → Nibble × Flags) {x : Reg} (y : Reg)
    (h : x = 12#4 ∨ x = 13#4) : execRR alu x y s = .refused .triggerOther := by
  rw [execRR, (isTriggerReg_iff x).2 h]; rfl

theorem execR0N_eq (alu : Nibble → Nibble → Flags → Nibble × Flags) (n : Nibble) :
    execR0N alu n s =
      .next ((s.writeReg 0#4 (alu (s.cell 0x00#8) n s.flags).1).setFlags (alu (s.cell 0x00#8) n s.flags).2) := by
  simp only [execR0N, r0, State.readReg_r0]

theorem execR0N_next (alu : Nibble → Nibble → Flags → Nibble × Flags) (n : Nibble) :
    ∃ t, execR0N alu n s = .next t ∧ WroteCell s 0x00#8 (alu (s.cell 0x00#8) n s.flags).1 t ∧
      t.flags = (alu (s.cell 0x00#8) n s.flags).2 ∧ t.pc = s.pc ∧ t.sp = s.sp :=
  ⟨_, execR0N_eq s alu n, (s.writeReg_wrote 0#4 _).congr_right (fun _ => rfl) rfl, rfl, by simp, by simp⟩

/-! ## The register write with the trigger (R9) -/

theorem stackDepth_le_iff (p : BitVec 3) : stackDepth ≤ p ↔ 5 ≤ p.toNat := Iff.rfl

theorem State.writeTrigger_plain {r : Reg} (v : Nibble) (h12 : r ≠ 12#4) (h13 : r ≠ 13#4) :
    s.writeTrigger r v = .next (s.writeReg r v) := by simp [State.writeTrigger, h12, h13]

theorem State.writeTrigger_jump (v : Nibble) : s.writeTrigger 13#4 v = .next ((s.writeReg 13#4 v).jump v) := by
  simp [State.writeTrigger]

theorem State.writeTrigger_call (v : Nibble) (h : s.sp.toNat < 5) :
    s.writeTrigger 12#4 v = .next ((s.writeReg 12#4 v).call v) := by
  have : ¬ stackDepth ≤ s.sp := by rw [stackDepth_le_iff]; omega
  simp [State.writeTrigger, this]

theorem State.writeTrigger_full (v : Nibble) (h : 5 ≤ s.sp.toNat) :
    s.writeTrigger 12#4 v = .refused .stackOverflow := by
  have : stackDepth ≤ s.sp := (stackDepth_le_iff _).2 h
  simp [State.writeTrigger, this]

theorem Jumped.congr {s s' t t' : State} {v : Nibble} (h : Jumped s' v t) (hm : ∀ b, s'.cell b = s.cell b)
    (hp : s'.prog = s.prog) (hs : s'.sp = s.sp) (hm' : ∀ b, t'.cell b = t.cell b) (hp' : t'.prog = t.prog)
    (hs' : t'.sp = t.sp) (hpc : t'.pc = t.pc) : Jumped s v t' where
  wrote := (h.wrote.congr_left hm hp).congr_right hm' hp'
  target := by rw [hpc, h.target, hm, hm]
  level := by rw [hs', h.level, hs]

theorem Called.congr {s s' t : State} {v : Nibble} (h : Called s' v t) (hm : ∀ b, s'.cell b = s.cell b)
    (hp : s'.prog = s.prog) (hs : s'.sp = s.sp) (hpc : s'.pc = s.pc) : Called s v t where
  written := h.written
  low := by rw [← hs, ← hpc]; exact h.low
  middle := by rw [← hs, ← hpc]; exact h.middle
  high := by rw [← hs, ← hpc]; exact h.high
  kept := fun b h0 h1 h2 h3 => by rw [← hs] at h1 h2 h3; exact (h.kept b h0 h1 h2 h3).trans (hm b)
  level := by rw [← hs]; exact h.level
  target := by rw [h.target, hm, hm]
  image := h.image.trans hp

@[simp] theorem State.call_flags (v : Nibble) : (s.call v).flags = s.flags := by simp [State.call]
@[simp] theorem State.jump_flags (v : Nibble) : (s.jump v).flags = s.flags := rfl

/-! ## The explicit accesses of the memory moves (R58, R62) -/

theorem isUndocumented_iff (a : Addr) : isUndocumented a = true ↔ undocumentedAddr a := by
  revert a; decide

theorem explicitWriteRefusal_none {a : Addr} (hu : ¬ undocumentedAddr a) (hC : a ≠ 0x0C#8) (hD : a ≠ 0x0D#8) :
    explicitWriteRefusal a = none := by
  have : isUndocumented a = false := by rw [← Bool.not_eq_true, isUndocumented_iff]; exact hu
  simp [explicitWriteRefusal, isTriggerCell, hC, hD, this]

theorem explicitWriteRefusal_trigger {a : Addr} (h : a = 0x0C#8 ∨ a = 0x0D#8) :
    explicitWriteRefusal a = some .triggerOther := by
  rcases h with rfl | rfl <;> decide

theorem explicitWriteRefusal_undocumented {a : Addr} (h : undocumentedAddr a) :
    explicitWriteRefusal a = some .sfrNotInSource := by
  revert h; revert a; decide

theorem explicitReadRefusal_none {a : Addr} (hu : ¬ undocumentedAddr a) (h3 : a ≠ 0xF3#8) :
    explicitReadRefusal a = none := by
  have : isUndocumented a = false := by rw [← Bool.not_eq_true, isUndocumented_iff]; exact hu
  simp [explicitReadRefusal, wrflagsAddr, h3, this]

theorem explicitReadRefusal_undocumented {a : Addr} (h : undocumentedAddr a) :
    explicitReadRefusal a = some .sfrNotInSource := by
  revert h; revert a; decide

/-! ## The exchange of pairs (R191) -/

@[simp] theorem exchangePair_prog (i : Nat) : (exchangePair s i).prog = s.prog := by simp [exchangePair]
@[simp] theorem exchangePair_pc (i : Nat) : (exchangePair s i).pc = s.pc := by simp [exchangePair]
@[simp] theorem exchangePair_sp (i : Nat) : (exchangePair s i).sp = s.sp := by simp [exchangePair]
@[simp] theorem exchangePair_flags (i : Nat) : (exchangePair s i).flags = s.flags := by simp [exchangePair]

theorem exchangePairs_same (n : Nat) : (exchangePairs s n).prog = s.prog ∧ (exchangePairs s n).pc = s.pc ∧
    (exchangePairs s n).sp = s.sp ∧ (exchangePairs s n).flags = s.flags := by
  induction n with
  | zero => exact ⟨rfl, rfl, rfl, rfl⟩
  | succ n ih => simpa [exchangePairs] using ih

theorem exchangePair_cell_other {i : Nat} {b : Addr} (h1 : b ≠ BitVec.ofNat 8 i)
    (h2 : b ≠ 0xE0#8 + BitVec.ofNat 8 i) : (exchangePair s i).cell b = s.cell b := by
  simp [exchangePair, State.memWrite_cell_other _ _ h1, State.memWrite_cell_other _ _ h2]

theorem exchangePairs_wf (n : Nat) (h : s.mem.wf 256 = true) : (exchangePairs s n).mem.wf 256 = true := by
  induction n with
  | zero => exact h
  | succ n ih =>
    simp only [exchangePairs, exchangePair]
    exact State.memWrite_wf _ _ _ (State.memWrite_wf _ _ _ (by simpa using ih))

end Sys2Proof.Machine
end

