-- ==== Sys2Proof/Laws/Exec.lean ====
section
/-!
SUPPORT. What an answered meaning says, once for all instructions: `exec_next` gives the state each instruction
answers, in terms of the shared operations and with its guards, so that a proof over all instructions unfolds none.
-/
namespace Sys2Proof.Machine

/-! ## The shapes, inverted -/

theorem execRR_inv {alu : Nibble → Nibble → Flags → Nibble × Flags} {x y : Reg} {s t : State}
    (h : execRR alu x y s = .next t) :
    x ≠ 12#4 ∧ x ≠ 13#4 ∧
      t = (((s.readReg x).2.readReg y).2.writeReg x (alu (s.readReg x).1 ((s.readReg x).2.readReg y).1 s.flags).1).setFlags
        (alu (s.readReg x).1 ((s.readReg x).2.readReg y).1 s.flags).2 := by
  unfold execRR at h
  split at h
  · cases h
  · next hr =>
    rw [isTriggerReg_iff, not_or] at hr
    cases h
    exact ⟨hr.1, hr.2, rfl⟩

theorem State.explicitRead_inv {a : Addr} {k : Nibble → State → Result} {s t : State}
    (h : s.explicitRead a k = .next t) :
    explicitReadRefusal a = none ∧ k (s.memRead a).1 (s.memRead a).2 = .next t := by
  unfold State.explicitRead at h
  split at h
  · cases h
  · next hr => exact ⟨hr, h⟩

theorem State.explicitWrite_inv {a : Addr} {v : Nibble} {s t : State} (h : s.explicitWrite a v = .next t) :
    explicitWriteRefusal a = none ∧ t = s.memWrite a v := by
  unfold State.explicitWrite at h
  split at h
  · cases h
  · next hr => cases h; exact ⟨hr, rfl⟩

theorem State.bitCellWrite_plain (s : State) (g : BitSel) : ¬ s.inputCell (s.bitCellWrite g) := by
  cases g
  · exact s.not_inputCell_of (a := 0x00#8) (by decide) (by decide)
  · exact s.not_inputCell_of (a := 0x01#8) (by decide) (by decide)
  · exact s.not_inputCell_of (a := 0x02#8) (by decide) (by decide)
  · exact s.not_input_of_output ((s.outAddr_iff _).1 rfl)

theorem execBitWrite_eq (f : Nibble → Nibble → Nibble) (g : BitSel) (m : BitVec 2) (s : State) :
    execBitWrite f g m s =
      .next (s.memWrite (s.bitCellWrite g) (f (s.cell (s.bitCellWrite g)) (bitMask m))) := by
  simp only [execBitWrite, s.memRead_plain (s.bitCellWrite_plain g)]

/-! ## The register write with the trigger, field by field -/

theorem State.writeTrigger_sp {s t : State} {r : Reg} {v : Nibble} (h : s.writeTrigger r v = .next t) :
    t.sp = if r = 12#4 then s.sp + 1#3 else s.sp := by
  rcases s.writeTrigger_cases h with ⟨rfl, rfl⟩ | ⟨rfl, -, rfl⟩ | ⟨-, h12, rfl⟩
  · simp [State.jump]
  · simp [State.call]
  · simp [h12]

theorem State.writeTrigger_pc {s t : State} {r : Reg} {v : Nibble} (h : s.writeTrigger r v = .next t) :
    t.pc = if r = 13#4 ∨ r = 12#4 then s.cell 0x0F#8 ++ s.cell 0x0E#8 ++ v else s.pc := by
  rcases s.writeTrigger_cases h with ⟨rfl, rfl⟩ | ⟨rfl, hd, rfl⟩ | ⟨h13, h12, rfl⟩
  · exact (s.jump_jumped v).target
  · exact (s.call_called v hd).target
  · simp [h12, h13]

theorem State.writeTrigger_flags {s t : State} {r : Reg} {v : Nibble} (h : s.writeTrigger r v = .next t) :
    t.flags = s.flags := by
  rcases s.writeTrigger_cases h with ⟨rfl, rfl⟩ | ⟨rfl, -, rfl⟩ | ⟨-, -, rfl⟩ <;> simp

theorem State.writeTrigger_prog {s t : State} {r : Reg} {v : Nibble} (h : s.writeTrigger r v = .next t) :
    t.prog = s.prog := by
  rcases s.writeTrigger_cases h with ⟨rfl, rfl⟩ | ⟨rfl, hd, rfl⟩ | ⟨-, -, rfl⟩
  · exact (s.jump_jumped v).wrote.image
  · exact (s.call_called v hd).image
  · simp

theorem State.writeTrigger_wf {s t : State} {r : Reg} {v : Nibble} (h : s.writeTrigger r v = .next t)
    (hw : s.mem.wf 256 = true) : t.mem.wf 256 = true := by
  rcases s.writeTrigger_cases h with ⟨rfl, rfl⟩ | ⟨rfl, -, rfl⟩ | ⟨-, -, rfl⟩
  · exact s.memWrite_wf _ _ hw
  · rw [State.call, State.setPc_mem]; exact State.push_wf _ _ (s.memWrite_wf _ _ hw)
  · exact s.memWrite_wf _ _ hw

theorem State.writeTrigger_out {s t : State} {r : Reg} {v : Nibble} (h : s.writeTrigger r v = .next t) :
    t.out = s.out ++ (if s.outputCell (regAddr r) then [v] else []) := by
  rcases s.writeTrigger_cases h with ⟨rfl, rfl⟩ | ⟨rfl, -, rfl⟩ | ⟨-, -, rfl⟩
  · rw [State.jump, State.setPc_out, State.writeReg_eq, State.memWrite_out]
  · rw [State.call, State.setPc_out, State.push_out, State.writeReg_eq, State.memWrite_out]
  · rw [State.writeReg_eq, State.memWrite_out]

theorem State.writeTrigger_kept {s t : State} {r : Reg} {v : Nibble} (h : s.writeTrigger r v = .next t) {a : Addr}
    (ha : a ≠ regAddr r)
    (hstack : r = 12#4 → a ≠ entryCell s.sp.toNat 0 ∧ a ≠ entryCell s.sp.toNat 1 ∧ a ≠ entryCell s.sp.toNat 2) :
    t.cell a = s.cell a := by
  rcases s.writeTrigger_cases h with ⟨rfl, rfl⟩ | ⟨rfl, hd, rfl⟩ | ⟨-, -, rfl⟩
  · exact (s.jump_jumped v).wrote.kept a ha
  · obtain ⟨h0, h1, h2⟩ := hstack rfl
    exact (s.call_called v hd).kept a ha h0 h1 h2
  · exact (s.writeReg_wrote r v).kept a ha

/-! ## Every instruction -/

/-- What `exec` answers when it answers a next state. -/
theorem exec_next {i : Instr} {s t : State} (h : exec i s = .next t) :
    let rr (alu : Nibble → Nibble → Flags → Nibble × Flags) (x y : Reg) : Prop :=
      x ≠ 12#4 ∧ x ≠ 13#4 ∧
        t = (((s.readReg x).2.readReg y).2.writeReg x
              (alu (s.readReg x).1 ((s.readReg x).2.readReg y).1 s.flags).1).setFlags
            (alu (s.readReg x).1 ((s.readReg x).2.readReg y).1 s.flags).2
    let lit (alu : Nibble → Nibble → Flags → Nibble × Flags) (n : Nibble) : Prop :=
      t = (s.writeReg 0#4 (alu (s.cell 0x00#8) n s.flags).1).setFlags (alu (s.cell 0x00#8) n s.flags).2
    let unary (alu : Nibble → Flags → Nibble × Flags) (y : Reg) : Prop :=
      ((s.readReg y).2.setFlags (alu (s.readReg y).1 s.flags).2).writeTrigger y (alu (s.readReg y).1 s.flags).1 = .next t
    let bit (f : Nibble → Nibble → Nibble) (g : BitSel) (m : BitVec 2) : Prop :=
      t = s.memWrite (s.bitCellWrite g) (f (s.cell (s.bitCellWrite g)) (bitMask m))
    match i with
    | .addXY x y => rr aluAdd x y
    | .adcXY x y => rr aluAdc x y
    | .subXY x y => rr aluSub x y
    | .sbbXY x y => rr aluSbb x y
    | .orXY x y => rr aluOr x y
    | .andXY x y => rr aluAnd x y
    | .xorXY x y => rr aluXor x y
    | .movXY x y => (s.readReg y).2.writeTrigger x (s.readReg y).1 = .next t
    | .movXN x n => s.writeTrigger x n = .next t
    | .storeXY x y => explicitWriteRefusal (s.pairOperand x y) = none ∧
        t = (s.afterPair x y).memWrite (s.pairOperand x y) (s.cell 0x00#8)
    | .loadXY x y => explicitReadRefusal (s.pairOperand x y) = none ∧
        t = ((s.afterPair x y).memRead (s.pairOperand x y)).2.writeReg r0
              ((s.afterPair x y).memRead (s.pairOperand x y)).1
    | .storeNN nn => explicitWriteRefusal nn = none ∧ t = s.memWrite nn (s.cell 0x00#8)
    | .loadNN nn => explicitReadRefusal nn = none ∧ t = (s.memRead nn).2.writeReg r0 (s.memRead nn).1
    | .movPC nn => t = (s.writeReg 14#4 (nn.extractLsb' 0 4)).writeReg 15#4 (nn.extractLsb' 4 4)
    | .jr nn => t = s.setPc (s.pc + nn.signExtend 12)
    | .cpN n => t = s.setFlags (cpFlags (s.cell 0x00#8) n s.flags)
    | .addN n => lit aluAddN n
    | .inc y => unary aluInc y
    | .dec y => unary aluDec y
    | .dsz y => y ≠ 12#4 ∧ y ≠ 13#4 ∧
        t = (if (s.readReg y).1 - 1#4 = 0#4
              then ((s.readReg y).2.writeReg y ((s.readReg y).1 - 1#4)).setPc (s.pc + 1#12)
              else (s.readReg y).2.writeReg y ((s.readReg y).1 - 1#4))
    | .orN n => lit aluOrN n
    | .andN n => lit aluAndN n
    | .xorN n => lit aluXorN n
    | .exr n => n ≤ 12 ∧ t = exchangePairs s n
    | .bit g m => t = (s.memRead (s.bitCellRead g)).2.setFlags (bitFlags (s.memRead (s.bitCellRead g)).1 m s.flags)
    | .bset g m => bit (fun v b => v ||| b) g m
    | .bclr g m => bit (fun v b => v &&& ~~~b) g m
    | .btg g m => bit (fun v b => v ^^^ b) g m
    | .rrc y => y ≠ 12#4 ∧ y ≠ 13#4 ∧
        t = ((s.readReg y).2.writeReg y (aluRrc (s.readReg y).1 s.flags).1).setFlags (aluRrc (s.readReg y).1 s.flags).2
    | .ret n => s.sp ≠ 0#3 ∧ t = (s.writeReg r0 n).pop
    | .skip f n => t = if condHolds f s.flags = true then s.setPc (s.pc + BitVec.ofNat 12 n) else s := by
  intro rr lit unary bit
  have hlit : ∀ {alu : Nibble → Nibble → Flags → Nibble × Flags} {n : Nibble}, execR0N alu n s = .next t → lit alu n := by
    intro alu n h
    rw [execR0N_eq] at h
    cases h
    rfl
  have hbit : ∀ {f : Nibble → Nibble → Nibble} {g : BitSel} {m : BitVec 2},
      execBitWrite f g m s = .next t → bit f g m := by
    intro f g m h
    rw [execBitWrite_eq] at h
    cases h
    rfl
  cases i with
  | addXY x y => exact execRR_inv h
  | adcXY x y => exact execRR_inv h
  | subXY x y => exact execRR_inv h
  | sbbXY x y => exact execRR_inv h
  | orXY x y => exact execRR_inv h
  | andXY x y => exact execRR_inv h
  | xorXY x y => exact execRR_inv h
  | movXY x y => exact h
  | movXN x n => exact h
  | storeXY x y =>
    have hw := State.explicitWrite_inv h
    rw [show s.pairAddr x y = (s.pairOperand x y, s.afterPair x y) from rfl] at hw
    simpa only [r0, State.readReg_r0, State.readReg_cell] using hw
  | loadXY x y =>
    have hr := State.explicitRead_inv (s := s.afterPair x y) (a := s.pairOperand x y)
      (k := fun v t => .next (t.writeReg r0 v)) h
    exact ⟨hr.1, by have e := hr.2; cases e; rfl⟩
  | storeNN nn =>
    have hw := State.explicitWrite_inv h
    simpa only [r0, State.readReg_r0] using hw
  | loadNN nn =>
    have hr := State.explicitRead_inv (s := s) (a := nn) (k := fun v t => .next (t.writeReg r0 v)) h
    exact ⟨hr.1, by have e := hr.2; cases e; rfl⟩
  | movPC nn => cases h; rfl
  | jr nn => cases h; rfl
  | cpN n => simp only [exec, execCpN, r0, State.readReg_r0] at h; cases h; rfl
  | addN n => exact hlit h
  | inc y => exact h
  | dec y => exact h
  | dsz y =>
    simp only [exec, execDsz] at h
    split at h
    · cases h
    · next hr => rw [isTriggerReg_iff, not_or] at hr; cases h; exact ⟨hr.1, hr.2, by simp⟩
  | orN n => exact hlit h
  | andN n => exact hlit h
  | xorN n => exact hlit h
  | exr n =>
    simp only [exec, execExr] at h
    split at h
    · cases h
    · cases h; exact ⟨by omega, rfl⟩
  | bit g m => cases h; rfl
  | bset g m => exact hbit h
  | bclr g m => exact hbit (f := fun v b => v &&& ~~~b) h
  | btg g m => exact hbit h
  | rrc y =>
    simp only [exec, execRrc] at h
    split at h
    · cases h
    · next hr => rw [isTriggerReg_iff, not_or] at hr; cases h; exact ⟨hr.1, hr.2, by simp⟩
  | ret n =>
    simp only [exec, execRet] at h
    split at h
    · cases h
    · next hr => cases h; exact ⟨hr, rfl⟩
  | skip f n => cases h; rfl

/-! ## The step -/

/-- A word the state lists is the word fetched. -/
theorem State.fetch_listed {s : State} {w : InstrWord} (h : s.prog.read? s.pc.toNat = some w) : s.fetch = w := by
  simp [State.fetch, h]

/-- Where the state lists no word the launch image's is fetched. -/
theorem State.fetch_unlisted {s : State} (h : s.prog.read? s.pc.toNat = none) : s.fetch = Config.launchWord s.pc := by
  simp [State.fetch, h]

/-- What a step is: no case of it is left out. -/
theorem step_eq (s : State) : step s = exec (decode s.fetch) s.advance := rfl

end Sys2Proof.Machine
end

