-- ==== Sys2Proof/Laws/PerInstr.lean ====
section
/-!
SUPPORT. A statement made per instruction: the word of an instruction carries exactly the fixed bits of its row of
spec/opcode_table.json (30_encoding.md R84).
-/
namespace Sys2Proof.Laws.EncodeMatchesRow

/-- The row's mask and match, letter for letter from the table. -/
def row : Instr → InstrWord × InstrWord
  | .addXY _ _ => (0xF00#12, 0x100#12)
  | .adcXY _ _ => (0xF00#12, 0x200#12)
  | .subXY _ _ => (0xF00#12, 0x300#12)
  | .sbbXY _ _ => (0xF00#12, 0x400#12)
  | .orXY _ _ => (0xF00#12, 0x500#12)
  | .andXY _ _ => (0xF00#12, 0x600#12)
  | .xorXY _ _ => (0xF00#12, 0x700#12)
  | .movXY _ _ => (0xF00#12, 0x800#12)
  | .movXN _ _ => (0xF00#12, 0x900#12)
  | .storeXY _ _ => (0xF00#12, 0xA00#12)
  | .loadXY _ _ => (0xF00#12, 0xB00#12)
  | .storeNN _ => (0xF00#12, 0xC00#12)
  | .loadNN _ => (0xF00#12, 0xD00#12)
  | .movPC _ => (0xF00#12, 0xE00#12)
  | .jr _ => (0xF00#12, 0xF00#12)
  | .cpN _ => (0xFF0#12, 0x000#12)
  | .addN _ => (0xFF0#12, 0x010#12)
  | .inc _ => (0xFF0#12, 0x020#12)
  | .dec _ => (0xFF0#12, 0x030#12)
  | .dsz _ => (0xFF0#12, 0x040#12)
  | .orN _ => (0xFF0#12, 0x050#12)
  | .andN _ => (0xFF0#12, 0x060#12)
  | .xorN _ => (0xFF0#12, 0x070#12)
  | .exr _ => (0xFF0#12, 0x080#12)
  | .bit _ _ => (0xFF0#12, 0x090#12)
  | .bset _ _ => (0xFF0#12, 0x0A0#12)
  | .bclr _ _ => (0xFF0#12, 0x0B0#12)
  | .btg _ _ => (0xFF0#12, 0x0C0#12)
  | .rrc _ => (0xFF0#12, 0x0D0#12)
  | .ret _ => (0xFF0#12, 0x0E0#12)
  | .skip _ _ => (0xFF0#12, 0x0F0#12)

/-- The word has the row's fixed bits. -/
def Statement (i : Instr) : Prop := encode i &&& (row i).1 = (row i).2

/-- A 4-bit head followed by any 8 bits. -/
theorem head4 (h : BitVec 4) (nn : BitVec 8) : (h ++ nn : BitVec 12) &&& 0xF00#12 = h ++ 0x00#8 := by
  revert h nn; decide +kernel

/-- An 8-bit head followed by any 4 bits. -/
theorem head8 (h : BitVec 8) (n : BitVec 4) : (h ++ n : BitVec 12) &&& 0xFF0#12 = h ++ 0x0#4 := by
  revert h n; decide +kernel

/-- Two register fields are one 8-bit field. -/
theorem pair4 (h x y : BitVec 4) : (h ++ x ++ y : BitVec 12) = h ++ (x ++ y) := by
  revert h x y; decide +kernel

/-- Two 2-bit fields are one 4-bit field. -/
theorem pair2 (h : BitVec 8) (g m : BitVec 2) : (h ++ g ++ m : BitVec 12) = h ++ (g ++ m) := by
  revert h g m; decide +kernel

theorem addXY (x y : Reg) : Statement (.addXY x y) := (congrArg (· &&& 0xF00#12) (pair4 _ _ _)).trans (head4 _ _)

theorem adcXY (x y : Reg) : Statement (.adcXY x y) := (congrArg (· &&& 0xF00#12) (pair4 _ _ _)).trans (head4 _ _)

theorem subXY (x y : Reg) : Statement (.subXY x y) := (congrArg (· &&& 0xF00#12) (pair4 _ _ _)).trans (head4 _ _)

theorem sbbXY (x y : Reg) : Statement (.sbbXY x y) := (congrArg (· &&& 0xF00#12) (pair4 _ _ _)).trans (head4 _ _)

theorem orXY (x y : Reg) : Statement (.orXY x y) := (congrArg (· &&& 0xF00#12) (pair4 _ _ _)).trans (head4 _ _)

theorem andXY (x y : Reg) : Statement (.andXY x y) := (congrArg (· &&& 0xF00#12) (pair4 _ _ _)).trans (head4 _ _)

theorem xorXY (x y : Reg) : Statement (.xorXY x y) := (congrArg (· &&& 0xF00#12) (pair4 _ _ _)).trans (head4 _ _)

theorem movXY (x y : Reg) : Statement (.movXY x y) := (congrArg (· &&& 0xF00#12) (pair4 _ _ _)).trans (head4 _ _)

theorem movXN (x : Reg) (n : Nibble) : Statement (.movXN x n) := (congrArg (· &&& 0xF00#12) (pair4 _ _ _)).trans (head4 _ _)

theorem storeXY (x y : Reg) : Statement (.storeXY x y) := (congrArg (· &&& 0xF00#12) (pair4 _ _ _)).trans (head4 _ _)

theorem loadXY (x y : Reg) : Statement (.loadXY x y) := (congrArg (· &&& 0xF00#12) (pair4 _ _ _)).trans (head4 _ _)

theorem storeNN (nn : BitVec 8) : Statement (.storeNN nn) := head4 _ nn

theorem loadNN (nn : BitVec 8) : Statement (.loadNN nn) := head4 _ nn

theorem movPC (nn : BitVec 8) : Statement (.movPC nn) := head4 _ nn

theorem jr (nn : BitVec 8) : Statement (.jr nn) := head4 _ nn

theorem cpN (n : BitVec 4) : Statement (.cpN n) := head8 _ n

theorem addN (n : BitVec 4) : Statement (.addN n) := head8 _ n

theorem inc (y : BitVec 4) : Statement (.inc y) := head8 _ y

theorem dec (y : BitVec 4) : Statement (.dec y) := head8 _ y

theorem dsz (y : BitVec 4) : Statement (.dsz y) := head8 _ y

theorem orN (n : BitVec 4) : Statement (.orN n) := head8 _ n

theorem andN (n : BitVec 4) : Statement (.andN n) := head8 _ n

theorem xorN (n : BitVec 4) : Statement (.xorN n) := head8 _ n

theorem exr (count : Nat) : Statement (.exr count) := head8 _ _

theorem bit (g : BitSel) (m : BitVec 2) : Statement (.bit g m) :=
  (congrArg (· &&& 0xFF0#12) (pair2 _ _ _)).trans (head8 _ _)

theorem bset (g : BitSel) (m : BitVec 2) : Statement (.bset g m) :=
  (congrArg (· &&& 0xFF0#12) (pair2 _ _ _)).trans (head8 _ _)

theorem bclr (g : BitSel) (m : BitVec 2) : Statement (.bclr g m) :=
  (congrArg (· &&& 0xFF0#12) (pair2 _ _ _)).trans (head8 _ _)

theorem btg (g : BitSel) (m : BitVec 2) : Statement (.btg g m) :=
  (congrArg (· &&& 0xFF0#12) (pair2 _ _ _)).trans (head8 _ _)

theorem rrc (y : BitVec 4) : Statement (.rrc y) := head8 _ y

theorem ret (n : BitVec 4) : Statement (.ret n) := head8 _ n

theorem skip (f : SkipCond) (count : Nat) : Statement (.skip f count) :=
  (congrArg (· &&& 0xFF0#12) (pair2 _ _ _)).trans (head8 _ _)

end Sys2Proof.Laws.EncodeMatchesRow
end

