-- ==== Sys2Proof/Tests/Slice0.lean ====
section
/-!
SUPPORT. Tests: the WellFormed checks, the decoding of every instruction's word written out from its row of
30_encoding.md R84, one step per printed or derived vector of 95_test_vectors.md, and for every statement with
hypotheses a concrete state and operands that meet them.
-/
namespace Sys2Proof.Tests

open Sys2Proof.Machine

/-! ## WellFormed: each check refuses its ill-formed term -/

theorem test_exr_count_0_refused : (Instr.exr 0).wellFormed = false := by decide
theorem test_exr_count_17_refused : (Instr.exr 17).wellFormed = false := by decide
theorem test_skip_count_0_refused : (Instr.skip .z 0).wellFormed = false := by decide
theorem test_skip_count_5_refused : (Instr.skip .z 5).wellFormed = false := by decide

/-! ## Decoding (R84), the bits of each word written out field by field -/

theorem test_decode_addXY : decode 0b0001_0010_0000#12 = .addXY 2 0 := by decide
theorem test_decode_adcXY : decode 0b0010_0001_0111#12 = .adcXY 1 7 := by decide
theorem test_decode_subXY : decode 0b0011_0110_0010#12 = .subXY 6 2 := by decide
theorem test_decode_sbbXY : decode 0b0100_0101_0011#12 = .sbbXY 5 3 := by decide
theorem test_decode_orXY : decode 0b0101_0000_0111#12 = .orXY 0 7 := by decide
theorem test_decode_andXY : decode 0b0110_1010_1011#12 = .andXY 10 11 := by decide
theorem test_decode_xorXY : decode 0b0111_1000_0011#12 = .xorXY 8 3 := by decide
theorem test_decode_movXY : decode 0b1000_0110_0101#12 = .movXY 6 5 := by decide
theorem test_decode_movXN : decode 0b1001_1001_0111#12 = .movXN 9 7 := by decide
theorem test_decode_storeXY : decode 0b1010_1001_0100#12 = .storeXY 9 4 := by decide
theorem test_decode_loadXY : decode 0b1011_0100_0111#12 = .loadXY 4 7 := by decide
theorem test_decode_storeNN : decode 0b1100_0001_1001#12 = .storeNN 0x19 := by decide
theorem test_decode_loadNN : decode 0b1101_1110_0010#12 = .loadNN 0xE2 := by decide
theorem test_decode_movPC : decode 0b1110_0011_0001#12 = .movPC 0x31 := by decide
theorem test_decode_jr : decode 0b1111_1111_1101#12 = .jr (-3) := by decide
theorem test_decode_cpN : decode 0b0000_0000_0101#12 = .cpN 5 := by decide
theorem test_decode_addN : decode 0b0000_0001_1110#12 = .addN 14 := by decide
theorem test_decode_inc : decode 0b0000_0010_0011#12 = .inc 3 := by decide
theorem test_decode_dec : decode 0b0000_0011_1000#12 = .dec 8 := by decide
theorem test_decode_dsz : decode 0b0000_0100_0011#12 = .dsz 3 := by decide
theorem test_decode_orN : decode 0b0000_0101_0110#12 = .orN 6 := by decide
theorem test_decode_andN : decode 0b0000_0110_1010#12 = .andN 10 := by decide
theorem test_decode_xorN : decode 0b0000_0111_0011#12 = .xorN 3 := by decide
theorem test_decode_exr : decode 0b0000_1000_1010#12 = .exr 10 ∧ decode 0b0000_1000_0000#12 = .exr 16 := by decide
theorem test_decode_bit : decode 0b0000_1001_1011#12 = .bit .r2 3 ∧ decode 0b0000_1001_1100#12 = .bit .rs 0 := by decide
theorem test_decode_bset : decode 0b0000_1010_0110#12 = .bset .r1 2 := by decide
theorem test_decode_bclr : decode 0b0000_1011_0001#12 = .bclr .r0 1 := by decide
theorem test_decode_btg : decode 0b0000_1100_1111#12 = .btg .rs 3 := by decide
theorem test_decode_rrc : decode 0b0000_1101_0100#12 = .rrc 4 := by decide
theorem test_decode_ret : decode 0b0000_1110_0100#12 = .ret 4 := by decide
theorem test_decode_skip : decode 0b0000_1111_0110#12 = .skip .nc 2 ∧ decode 0b0000_1111_1100#12 = .skip .nz 4 ∧
    decode 0b0000_1111_0001#12 = .skip .c 1 ∧ decode 0b0000_1111_1011#12 = .skip .z 3 := by decide

theorem test_table_word : decodeTableWord 16 0x120 = some (.addXY 2 0) ∧ decodeTableWord 16 0x1120 = none := by decide

theorem test_encode_zero_counts : encode (.exr 16) = 0x080#12 ∧ encode (.skip .nz 4) = 0x0FC#12 := by decide

/-! ## One step -/

/-- A small state: reset, with these cells written, these flags (C, Z, V), this SP and PC. -/
def at_ (cells : List (Addr × Nibble)) (f : Flags := ⟨false, false, false⟩) (sp : BitVec 3 := 0) (pc : ProgAddr := 0) :
    State :=
  (((cells.foldl (fun s cell => s.setCell cell.1 cell.2) State.reset).setFlags f).setSp sp).setPc pc

/-- The word `w` loaded and stepped from `s` answers a next state of which `p` holds. -/
def steps (w : Nat) (s : State) (p : State → Bool) : Bool :=
  match step (s.withFetchWord 16 w) with
  | .next t => p t
  | _ => false

/-- The word `w` loaded and stepped from `s` is refused for reason `r`. -/
def refuses (w : Nat) (s : State) (r : Refusal) : Bool :=
  match step (s.withFetchWord 16 w) with
  | .refused r' => r' == r
  | _ => false

/-! ### 95_test_vectors.md section 1.1 -/

theorem test_add : steps 0x120 (at_ [(2, 11), (0, 7)] ⟨true, false, false⟩) (fun t =>
    t.cell 2 == 2 && t.cell 0 == 7 && t.flags == ⟨true, false, false⟩ && t.pc == 1) = true := by decide
theorem test_adc : steps 0x217 (at_ [(1, 4), (7, 11)] ⟨true, false, false⟩) (fun t =>
    t.cell 1 == 0 && t.flags == ⟨true, true, false⟩) = true := by decide
theorem test_sub : steps 0x362 (at_ [(6, 15), (2, 9)]) (fun t =>
    t.cell 6 == 6 && t.flags == ⟨true, false, false⟩) = true := by decide
theorem test_sub_underflow : steps 0x3A4 (at_ [(10, 5), (4, 7)] ⟨true, false, false⟩) (fun t =>
    t.cell 10 == 14 && t.flags == ⟨false, false, false⟩ && t.out == [14]) = true := by decide
theorem test_sbb : steps 0x453 (at_ [(5, 14), (3, 3)]) (fun t =>
    t.cell 5 == 10 && t.flags == ⟨true, false, false⟩) = true := by decide
theorem test_sbb_overflow : steps 0x467 (at_ [(6, 6), (7, 14)] ⟨true, false, false⟩) (fun t =>
    t.cell 6 == 8 && t.flags == ⟨false, false, true⟩) = true := by decide
theorem test_or : steps 0x507 (at_ [(0, 5), (7, 12)] ⟨false, true, false⟩) (fun t =>
    t.cell 0 == 13 && t.flags == ⟨false, false, false⟩) = true := by decide
theorem test_and_plain_ports : steps 0x6AB (at_ [(0xF3, 2), (10, 14), (11, 7)] ⟨false, true, false⟩) (fun t =>
    t.cell 10 == 6 && t.flags == ⟨false, false, false⟩ && t.out == []) = true := by decide
theorem test_xor : steps 0x783 (at_ [(8, 6), (3, 12)] ⟨false, true, false⟩) (fun t =>
    t.cell 8 == 10 && t.flags == ⟨false, false, false⟩) = true := by decide
theorem test_add_to_pcl_refused : refuses 0x1D0 (at_ []) .triggerOther = true := by decide

/-! ### Sections 1.2, 1.3, 3 (P3, X4, X6) -/

theorem test_mov_register : steps 0x865 (at_ [(5, 2), (6, 14)]) (fun t => t.cell 6 == 2 && t.cell 5 == 2) = true := by
  decide
theorem test_mov_literal : steps 0x997 (at_ [(9, 10)]) (fun t => t.cell 9 == 7) = true := by decide
theorem test_mov_jumps : steps 0x9D0 (at_ [(14, 15), (15, 1)] (pc := 0x091)) (fun t =>
    t.pc == 0x1F0 && t.cell 13 == 0 && t.sp == 0) = true := by decide
theorem test_mov_calls : steps 0x9C8 (at_ [(14, 10), (15, 2)] (sp := 1) (pc := 0x2A0)) (fun t =>
    t.pc == 0x2A8 && t.sp == 2 && t.cell 12 == 8 && t.cell 0x13 == 1 && t.cell 0x14 == 10 && t.cell 0x15 == 2) = true := by
  decide
theorem test_call_stack_full : refuses 0x9C2 (at_ [] (sp := 5)) .stackOverflow = true := by decide
theorem test_store_pair : steps 0xA94 (at_ [(9, 1), (4, 2), (0, 15), (0x12, 5)]) (fun t =>
    t.cell 0x12 == 15 && t.cell 9 == 1 && t.cell 4 == 2) = true := by decide
theorem test_load_pair : steps 0xB47 (at_ [(4, 5), (7, 10), (0x5A, 14), (0, 3)]) (fun t =>
    t.cell 0 == 14 && t.cell 0x5A == 14) = true := by decide
theorem test_store_literal : steps 0xC19 (at_ [(0, 9), (0x19, 7)]) (fun t => t.cell 0x19 == 9) = true := by decide
theorem test_store_undocumented : refuses 0xCF0 (at_ []) .sfrNotInSource = true := by decide
theorem test_load_literal : steps 0xDE2 (at_ [(0xE2, 14), (0, 3)]) (fun t => t.cell 0 == 14) = true := by decide
theorem test_load_wrflags : refuses 0xDF3 (at_ []) .wrflagsRead = true := by decide
theorem test_mov_pc : steps 0xE31 (at_ [(14, 10), (15, 6)] (pc := 0x100)) (fun t =>
    t.cell 14 == 1 && t.cell 15 == 3 && t.pc == 0x101) = true := by decide
theorem test_jr : steps 0xFFD (at_ [] (pc := 0x040)) (fun t => t.pc == 0x03E) = true := by decide
theorem test_jr_wraps : steps 0xFFE (at_ [] (pc := 0x000)) (fun t => t.pc == 0xFFF) = true := by decide

/-! ### Section 1.4 -/

theorem test_cp : steps 0x005 (at_ [(0, 5)]) (fun t => t.cell 0 == 5 && t.flags == ⟨true, true, false⟩) = true := by decide
theorem test_add_literal : steps 0x01E (at_ [(0, 2)] ⟨false, false, true⟩) (fun t =>
    t.cell 0 == 0 && t.flags == ⟨true, true, true⟩) = true := by decide
theorem test_inc : steps 0x023 (at_ [(3, 15)]) (fun t => t.cell 3 == 0 && t.flags == ⟨true, true, false⟩) = true := by
  decide
theorem test_dec : steps 0x038 (at_ [(8, 2)]) (fun t => t.cell 8 == 1 && t.flags == ⟨true, false, false⟩) = true := by
  decide
theorem test_dec_wraps : steps 0x038 (at_ [(8, 0)] ⟨true, true, false⟩) (fun t =>
    t.cell 8 == 15 && t.flags == ⟨false, false, false⟩) = true := by decide
theorem test_dsz : steps 0x043 (at_ [(3, 1)] ⟨true, false, true⟩ (pc := 0xA80)) (fun t =>
    t.cell 3 == 0 && t.pc == 0xA82 && t.flags == ⟨true, false, true⟩) = true := by decide
theorem test_or_literal : steps 0x056 (at_ [(0, 3)] ⟨false, true, false⟩) (fun t =>
    t.cell 0 == 7 && t.flags == ⟨true, false, false⟩) = true := by decide
theorem test_and_literal : steps 0x06A (at_ [(0, 12)] ⟨true, true, false⟩) (fun t =>
    t.cell 0 == 8 && t.flags == ⟨false, false, false⟩) = true := by decide
theorem test_xor_literal : steps 0x073 (at_ [(0, 9)] ⟨true, true, false⟩) (fun t =>
    t.cell 0 == 10 && t.flags == ⟨false, false, false⟩) = true := by decide

/-! ### Sections 1.5 to 1.9 -/

theorem test_exr : steps 0x08A (at_ [(0, 11), (9, 8), (10, 15), (0xE0, 14), (0xE9, 3), (0xEA, 1)]) (fun t =>
    t.cell 0 == 14 && t.cell 0xE0 == 11 && t.cell 9 == 3 && t.cell 0xE9 == 8 && t.cell 10 == 15 && t.cell 0xEA == 1) =
      true := by decide +kernel
theorem test_exr_16_refused : refuses 0x080 (at_ []) .triggerOther = true := by decide
theorem test_bit : steps 0x09B (at_ [(2, 13)] ⟨false, true, false⟩) (fun t => t.flags == ⟨false, false, false⟩) = true := by
  decide
theorem test_bit_in : steps 0x09C (at_ [(0xF3, 8), (0xFB, 11)] ⟨false, false, true⟩) (fun t =>
    t.flags == ⟨false, !(Config.draw 0).getLsbD 0, true⟩ && t.draws == 1) = true := by
  have h : ∀ b : Bool, ((⟨false, !b, true⟩ : Flags) == ⟨false, !b, true⟩ && (1 == 1)) = true := by decide
  exact h ((Config.draw 0).getLsbD 0)
theorem test_bset : steps 0x0A6 (at_ [(1, 8)] ⟨false, true, false⟩) (fun t =>
    t.cell 1 == 12 && t.flags == ⟨false, true, false⟩) = true := by decide
theorem test_bset_out : steps 0x0AF (at_ [(0xF3, 11), (0xFA, 0), (0x0A, 0)] ⟨true, true, false⟩) (fun t =>
    t.cell 0xFA == 8 && t.cell 0x0A == 0 && t.out == [8]) = true := by decide
theorem test_bclr : steps 0x0B1 (at_ [(0, 15)]) (fun t => t.cell 0 == 13) = true := by decide
theorem test_bclr_out : steps 0x0BD (at_ [(0xF3, 13), (0x0A, 14), (0xFA, 12)] ⟨false, false, true⟩) (fun t =>
    t.cell 0x0A == 12 && t.cell 0xFA == 12 && t.out == [12]) = true := by decide
theorem test_btg : steps 0x0C8 (at_ [(2, 5)]) (fun t => t.cell 2 == 4) = true := by decide
theorem test_btg_out : steps 0x0CF (at_ [(0xF3, 7), (0xFA, 15)]) (fun t => t.cell 0xFA == 7 && t.out == [7]) = true := by
  decide
theorem test_rrc : steps 0x0D4 (at_ [(4, 4)] ⟨true, false, false⟩) (fun t =>
    t.cell 4 == 10 && t.flags == ⟨false, false, false⟩) = true := by decide
theorem test_ret : steps 0x0E4 (at_ [(0, 10), (0x13, 11), (0x14, 12), (0x15, 1), (0x10, 15), (0x11, 0), (0x12, 0)]
    (sp := 2) (pc := 0x25C)) (fun t => t.cell 0 == 4 && t.sp == 1 && t.pc == 0x1CB && t.cell 0x13 == 11) = true := by
  decide
theorem test_ret_stack_empty : refuses 0x0E1 (at_ []) .stackUnderflow = true := by decide
theorem test_skip : steps 0x0F6 (at_ [] ⟨false, true, false⟩ (pc := 0x08D)) (fun t => t.pc == 0x090) = true := by decide
theorem test_skip_not_taken : steps 0x0FD (at_ [] ⟨true, true, false⟩ (pc := 0x110)) (fun t => t.pc == 0x111) = true := by
  decide

/-! ## Witnesses: the hypotheses of the statements can be met

One theorem per statement with hypotheses, a conjunct per clause, at the boundary values of its range. -/

/-- IOPOS = 1. -/
def ports : State := at_ [(0xF3, 2)]

theorem witness_DecodeAndEncodeAreInverse : (Instr.exr 1).wellFormed = true ∧ (Instr.exr 16).wellFormed = true ∧
    (Instr.skip .c 1).wellFormed = true ∧ (Instr.skip .nz 4).wellFormed = true := by decide

/-- The first and the last word of each of the 15 rows with a 4-bit head and of the 16 rows with an 8-bit head. -/
theorem witness_DecodeFollowsTheInstructionList :
    (∀ h : BitVec 4, (h ++ 0x00#8 : InstrWord) &&& 0xF00#12 = h ++ 0x00#8 ∧ (h ++ 0xFF#8) &&& 0xF00#12 = h ++ 0x00#8) ∧
    (∀ h : BitVec 4, (0#4 ++ h ++ 0x0#4 : InstrWord) &&& 0xFF0#12 = 0#4 ++ h ++ 0x0#4 ∧
      (0#4 ++ h ++ 0xF#4) &&& 0xFF0#12 = 0#4 ++ h ++ 0x0#4) := by decide

theorem witness_StepRunsTheDecodedInstruction :
    ((at_ [] (pc := 0xFFF)).withFetchWord 16 0x120).prog.read? (at_ [] (pc := 0xFFF)).pc.toNat = some 0x120#12 ∧
      decode 0x120#12 = .addXY 2 0 := by decide

theorem witness_EveryAddressHoldsAWordToRun :
    (State.reset.withFetchWord 16 0x120).prog.read? State.reset.pc.toNat = some 0x120#12 ∧
      State.reset.prog.read? State.reset.pc.toNat = none := by decide

/-- Reset with nothing placed runs the launch image's first word, whatever it is. -/
theorem test_reset_runs_launch_image : step State.reset = exec (decode (Config.launchWord 0)) (State.reset.setPc 1) := rfl

theorem witness_LoadedWordIsRunNext : 0 < 4096 ∧ 4095 < 4096 := by decide

theorem witness_TerminalStateRepeatsForever :
    (State.reset.withFetchWord 16 0xFFF).fetch = 0xFFF#12 := by decide

theorem witness_RegistersAreCellsOfPageZero :
    ¬ State.reset.inputCell (regAddr 10) ∧ ¬ State.reset.inputCell (regAddr 12) ∧ ¬ ports.inputCell (regAddr 11) ∧
      State.reset.inputCell (regAddr 11) ∧ (9#4 ≠ 10#4 ∧ 9#4 ≠ 11#4) ∧ (12#4 ≠ 10#4 ∧ 12#4 ≠ 11#4) := by decide

theorem witness_OrdinaryCellsReadTheLastWrite :
    ¬ State.reset.inputCell 0x0A ∧ ¬ ports.inputCell 0x0B ∧ ¬ State.reset.inputCell 0xFA ∧
      ¬ State.reset.inputCell 0x10 ∧ State.reset.mem.read? (0x10 : Addr).toNat = none := by decide

theorem witness_InputCellsReadDrawsAndForgetWrites :
    ((0xFB : Addr) = 0xFB#8 ∨ ((0xFB : Addr) = 0x0B#8 ∧ (ports.cell 0xF3#8).getLsbD 1 = false)) ∧
    ((0x0B : Addr) = 0xFB#8 ∨ ((0x0B : Addr) = 0x0B#8 ∧ (State.reset.cell 0xF3#8).getLsbD 1 = false)) := by decide

theorem witness_OutputCellLatchesAndEmits :
    (0xFA#8 = if (ports.cell 0xF3#8).getLsbD 1 = true then 0xFA#8 else 0x0A#8) ∧
    (0x0A#8 = if (State.reset.cell 0xF3#8).getLsbD 1 = true then 0xFA#8 else 0x0A#8) ∧
    (0x0A#8 ≠ if (ports.cell 0xF3#8).getLsbD 1 = true then 0xFA#8 else 0x0A#8) := by decide

theorem witness_UnselectedPortCellsAllButFBAreStorage :
    ((ports.cell 0xF3#8).getLsbD 1 = true ∧ (0x0A#8 = 0x0A#8 ∨ 0x0B#8 = 0x0B#8)) ∧
    (State.reset.cell 0xF3#8).getLsbD 1 = false := by decide

/-- For ADD, ADC, SUB, SBB, MOV RX,RY, MOV RX,N, INC, DEC, DSZ and RRC: the destinations on both sides of R12 and R13,
the port registers among them. -/
theorem witness_ordinary_destinations : (0#4 ≠ 12#4 ∧ 0#4 ≠ 13#4) ∧ (10#4 ≠ 12#4 ∧ 10#4 ≠ 13#4) ∧
    (11#4 ≠ 12#4 ∧ 11#4 ≠ 13#4) ∧ (14#4 ≠ 12#4 ∧ 14#4 ≠ 13#4) := by decide

theorem witness_RegisterLogicResultFlagsFrame :
    let s := at_ [(14, 5), (7, 12)]
    (∀ k, (13#4).getLsbD k = ((s.readReg 14).1.getLsbD k || ((s.readReg 14).2.readReg 7).1.getLsbD k)) ∧
    (∀ k, (4#4).getLsbD k = ((s.readReg 14).1.getLsbD k && ((s.readReg 14).2.readReg 7).1.getLsbD k)) ∧
    (∀ k, (9#4).getLsbD k = ((s.readReg 14).1.getLsbD k ^^ ((s.readReg 14).2.readReg 7).1.getLsbD k)) := by
  have h1 : (at_ [(14, 5), (7, 12)]).readReg 14 = (5#4, at_ [(14, 5), (7, 12)]) := rfl
  have h2 : ((at_ [(14, 5), (7, 12)]).readReg 7).1 = 12#4 := rfl
  simp only [h1, h2]
  refine ⟨fun k => ?_, fun k => ?_, fun k => ?_⟩
  · rw [← BitVec.getLsbD_or]; rfl
  · rw [← BitVec.getLsbD_and]; rfl
  · rw [← BitVec.getLsbD_xor]; rfl

theorem witness_EachReadOfInputIsItsOwnDraw : (State.reset.cell 0xF3#8).getLsbD 1 = false := by decide

theorem witness_AddThenAdcAddsEightBits : (0#4).toNat < 10 ∧ (9#4).toNat < 10 ∧ (2#4).toNat < 10 ∧ (3#4).toNat < 10 ∧
    (9#4 ≠ 0#4 ∧ 3#4 ≠ 0#4) := by decide

theorem witness_SubstitutesForMissingInstructions : (0#4).toNat < 10 ∧ (9#4).toNat < 10 := by decide

/-- For MOV RX,RY, MOV RX,N, INC and DEC with destination R12: SP at its lowest, at the last level admitted, and full. -/
theorem witness_call_levels : (at_ []).sp.toNat < 5 ∧ (at_ [] (sp := 4)).sp.toNat < 5 ∧ 5 ≤ (at_ [] (sp := 5)).sp.toNat ∧
    5 ≤ (at_ [] (sp := 7)).sp.toNat := by decide

/-- For MOV [XY],R0 and MOV [NN],R0: an address of each clause, and both neighbours of each range. -/
theorem witness_StoreMovesResultFrame :
    (∀ a ∈ [0x00#8, 0x0B#8, 0x0E#8, 0xEF#8, 0xF3#8, 0xFA#8, 0xFB#8], ¬ undocumentedAddr a ∧ a ≠ 0x0C#8 ∧ a ≠ 0x0D#8) ∧
    (∀ a ∈ [0xF0#8, 0xF2#8, 0xF4#8, 0xF9#8, 0xFC#8, 0xFF#8], undocumentedAddr a ∧ a ≠ 0x0C#8 ∧ a ≠ 0x0D#8) ∧
    (at_ [(1, 0), (2, 12)]).pairOperand 1 2 = 0x0C#8 ∧ (at_ [(1, 15), (2, 4)]).pairOperand 1 2 = 0xF4#8 ∧
    (at_ [(1, 1), (2, 2)]).pairOperand 1 2 = 0x12#8 := by decide

theorem witness_LoadMovesResultFrame :
    (∀ a ∈ [0x00#8, 0x0C#8, 0x0D#8, 0xEF#8, 0xFA#8, 0xFB#8], ¬ undocumentedAddr a ∧ a ≠ 0xF3#8) ∧
    (∀ a ∈ [0xF0#8, 0xF2#8, 0xF4#8, 0xF9#8, 0xFC#8, 0xFF#8], undocumentedAddr a ∧ a ≠ 0xF3#8) ∧
    ¬ undocumentedAddr 0xF3#8 ∧ (at_ [(1, 15), (2, 3)]).pairOperand 1 2 = 0xF3#8 := by decide

theorem witness_ReturnPopsTheEntry : (at_ []).sp = 0#3 ∧ (at_ [] (sp := 1)).sp ≠ 0#3 ∧ (at_ [] (sp := 5)).sp ≠ 0#3 := by
  decide

theorem witness_SkipStepsOverWords : (at_ [] ⟨true, false, false⟩).flags.c = true ∧ ¬ (at_ []).flags.c = true ∧
    (at_ []).flags.c = false ∧ (at_ [] ⟨false, true, false⟩).flags.z = true ∧ (at_ []).flags.z = false := by decide

theorem witness_SkipConditionCodes : 0x0F0#12 &&& 0xFF0#12 = 0x0F0#12 ∧ 0x0FF#12 &&& 0xFF0#12 = 0x0F0#12 := by decide

/-- A state a subroutine may have left: elsewhere in program memory, with other cells, flags and output events. -/
def subroutineRan (t : State) : State :=
  ((((t.setPc 0x155).setFlags ⟨true, true, true⟩).setCell 0x00 9).setCell 0x20 5).emit 3

/-- A state with one level left. -/
def beforeCall : State := at_ [(14, 10), (15, 2)] (sp := 4) (pc := 0x2A1)

/-- The call is made with one level left and RET runs in a state other than the one the call left. -/
theorem witness_ReturnInvertsTheCall :
    ∀ i ∈ [Instr.movXY 12 3, .movXN 12 8, .inc 12, .dec 12],
      ∃ t, exec i beforeCall = .next t ∧ subroutineRan t ≠ t ∧ (subroutineRan t).sp = t.sp ∧
        ∀ j, j < 3 → (subroutineRan t).cell (entryCell beforeCall.sp.toNat j) = t.cell (entryCell beforeCall.sp.toNat j) := by
  intro i hi
  have hkept : ∀ t : State, ∀ j, j < 3 →
      (subroutineRan t).cell (entryCell beforeCall.sp.toNat j) = t.cell (entryCell beforeCall.sp.toNat j) := by
    intro t j hj
    have h : entryCell beforeCall.sp.toNat j ≠ 0x20#8 ∧ entryCell beforeCall.sp.toNat j ≠ 0x00#8 := by interval_cases j <;> decide
    simp [subroutineRan, State.cell_setCell_other _ _ h.1, State.cell_setCell_other _ _ h.2]
  have hne : ∀ t : State, subroutineRan t ≠ t := fun t e => by
    have h := congrArg (fun u : State => u.out.length) e
    simp [subroutineRan] at h
  simp only [List.mem_cons, List.not_mem_nil, or_false] at hi
  rcases hi with rfl | rfl | rfl | rfl <;> exact ⟨_, rfl, hne _, rfl, hkept _⟩

theorem witness_LiteralLogicResultFlagsFrame :
    let s := at_ [(0, 5)]
    (∀ k, (13#4).getLsbD k = ((s.cell 0x00#8).getLsbD k || (12#4).getLsbD k)) ∧
    (∀ k, (4#4).getLsbD k = ((s.cell 0x00#8).getLsbD k && (12#4).getLsbD k)) ∧
    (∀ k, (9#4).getLsbD k = ((s.cell 0x00#8).getLsbD k ^^ (12#4).getLsbD k)) := by
  have h : (at_ [(0, 5)]).cell 0x00#8 = 5#4 := by decide
  simp only [h]
  refine ⟨fun k => ?_, fun k => ?_, fun k => ?_⟩
  · rw [← BitVec.getLsbD_or]; rfl
  · rw [← BitVec.getLsbD_and]; rfl
  · rw [← BitVec.getLsbD_xor]; rfl

theorem witness_ExchangeSwapsThePairs : 13 ≤ 13 ∧ 0 ≤ 12 ∧ 12 ≤ 12 ∧ (11 < 12 ∧ ports.ioposSet) ∧ ¬ State.reset.ioposSet ∧
    (∀ k, k < 12 → 0x0C#8 ≠ BitVec.ofNat 8 k ∧ 0x0C#8 ≠ BitVec.ofNat 8 (0xE0 + k)) := by
  refine ⟨by decide, by decide, by decide, by decide, by decide, fun k hk => ?_⟩
  interval_cases k <;> decide

theorem witness_ExchangeTwiceRestores : (12 ≤ 12 ∧ ports.ioposSet) ∧ 10 ≤ 12 ∧ ¬ 11 ≤ 10 := by decide

theorem witness_BitWritesChangeOneBit :
    (Instr.bset .rs 3 = .bset .rs 3 ∧ true = true) ∧ (Instr.bclr .r0 0 = .bclr .r0 0 ∧ false = false) ∧
    (Instr.btg .r2 0 = .btg .r2 0 ∧ true = !((at_ []).cell 0x02#8).getLsbD (0#2).toNat) := by decide

theorem witness_FiveRotationsRestore : (11#4 ≠ 12#4 ∧ 11#4 ≠ 13#4 ∧ ports.ioposSet) ∧ (10#4 ≠ 12#4 ∧ 10#4 ≠ 13#4 ∧ 10#4 ≠ 11#4) := by
  decide

/-- Whether an outcome is a next state. -/
def isNext : Result → Bool
  | .next _ => true
  | _ => false

/-- One instruction of each constructor, with the jump and the call of the four that have them. -/
def oneOfEach : List Instr :=
  [.addXY 10 11, .adcXY 1 2, .subXY 1 2, .sbbXY 1 2, .orXY 1 2, .andXY 1 2, .xorXY 1 2, .movXY 12 1, .movXY 13 1,
   .movXY 14 1, .movXN 12 3, .movXN 13 3, .movXN 11 3, .storeXY 1 2, .loadXY 1 2, .storeNN 0xF3, .loadNN 0x12] ++
  [.movPC 0x31, .jr (-1), .cpN 3, .addN 3, .inc 12, .inc 13, .inc 10, .dec 12, .dec 13, .dec 1, .dsz 1, .orN 3,
   .andN 3, .xorN 3, .exr 12, .bit .rs 1, .bset .rs 1, .bclr .r1 1, .btg .r2 1, .rrc 11, .ret 3, .skip .nz 4]

/-- For the statements about every instruction that answers a next state: each constructor has such a state. -/
theorem witness_every_instruction_completes :
    oneOfEach.all (fun i => isNext (exec i (at_ [(1, 1), (2, 2), (0, 2), (0x12, 5)] (sp := 4)))) = true := by decide

theorem witness_OutputEventsOfEveryInstruction : 0x0A#8 ∈ writtenCells (.addXY 10 11) State.reset ∧
    0x0A#8 ∈ writtenCells (.exr 11) State.reset ∧ 0x0A#8 ∉ writtenCells (.exr 10) State.reset ∧
    0xFA#8 ∈ writtenCells (.bset .rs 0) ports := by decide

theorem witness_CellsNotWrittenAreKept : 0x13#8 ∉ writtenCells (.movXN 12 3) State.reset ∧
    0x0B#8 ∉ writtenCells (.exr 11) State.reset := by decide

theorem witness_ControlCellsChangeOnlyByStores : undocumentedAddr 0xF2#8 ∧ undocumentedAddr 0xFF#8 ∧
    ∃ t, exec (.storeNN 0xF3) (at_ [(0, 2)]) = .next t ∧ t.cell 0xF3#8 ≠ (at_ [(0, 2)]).cell 0xF3#8 :=
  ⟨by decide, by decide, _, rfl, by decide⟩

theorem witness_NoInstructionReadsV : (∃ t, exec (.adcXY 1 2) (at_ []) = .next t) ∧
    exec (.ret 1) (at_ []) = .refused .stackUnderflow := ⟨⟨_, rfl⟩, rfl⟩

theorem witness_EveryStepKeepsTheInvariant :
    (State.reset.withFetchWord 16 0x120).Inv ∧ ∃ t, step (State.reset.withFetchWord 16 0x120) = .next t :=
  ⟨by decide, _, rfl⟩

end Sys2Proof.Tests
end

section
/-!
PROOFS. The statements of 00_scope.md: the step as a whole (R11), and the flags an instruction does not name (R13).
-/
namespace Sys2Proof.Machine

/-! ## The step (R11, R27) -/

/-- The increment of a 12-bit PC is addition on the ring of 4096 words. -/
theorem State.advance_eq (s : State) :
    s.advance = { s with pc := BitVec.ofNat 12 ((s.pc.toNat + 1) % 4096) } := by
  have hpc : s.pc + 1#12 = BitVec.ofNat 12 ((s.pc.toNat + 1) % 4096) := BitVec.eq_of_toNat_eq (by simp)
  rw [State.advance, State.setPc, hpc]

/-- Settles O4: the word fetched is the listed one, and the instruction executes in the advanced state. -/
theorem stepRunsTheDecodedInstruction : Obligations.StepRunsTheDecodedInstruction := by
  intro s w i hw hi
  rw [step_eq, State.fetch_listed hw, hi, State.advance_eq]

/-! ## The flags each computation keeps (R29) -/

section
variable (a b n v : Nibble) (m : BitVec 2) (f : Flags)

@[simp] theorem aluOr_keeps_c : (aluOr a b f).2.c = f.c := rfl
@[simp] theorem aluOr_keeps_v : (aluOr a b f).2.v = f.v := rfl
@[simp] theorem aluAnd_keeps_c : (aluAnd a b f).2.c = f.c := rfl
@[simp] theorem aluAnd_keeps_v : (aluAnd a b f).2.v = f.v := rfl
@[simp] theorem aluXor_keeps_c : (aluXor a b f).2.c = f.c := rfl
@[simp] theorem aluXor_keeps_v : (aluXor a b f).2.v = f.v := rfl
@[simp] theorem cpFlags_keeps_v : (cpFlags a n f).v = f.v := rfl
@[simp] theorem aluAddN_keeps_v : (aluAddN a n f).2.v = f.v := rfl
@[simp] theorem aluInc_keeps_v : (aluInc a f).2.v = f.v := rfl
@[simp] theorem aluDec_keeps_v : (aluDec a f).2.v = f.v := rfl
@[simp] theorem aluOrN_keeps_v : (aluOrN a n f).2.v = f.v := rfl
@[simp] theorem aluAndN_keeps_v : (aluAndN a n f).2.v = f.v := rfl
@[simp] theorem aluXorN_keeps_v : (aluXorN a n f).2.v = f.v := rfl
@[simp] theorem bitFlags_keeps_c : (bitFlags v m f).c = f.c := rfl
@[simp] theorem bitFlags_keeps_v : (bitFlags v m f).v = f.v := rfl
@[simp] theorem aluRrc_keeps_v : (aluRrc v f).2.v = f.v := rfl

end

/-! ## The flags each instruction keeps (R13, R29) -/

@[simp] theorem exchangePairs_flags (s : State) (n : Nat) : (exchangePairs s n).flags = s.flags := by
  obtain ⟨-, -, -, hflags⟩ := exchangePairs_same s n
  exact hflags

/-- Settles O46, case by case on the instruction: `exec_next` gives the state each one answers, in which the flags are
those of its flag computation, or untouched. -/
theorem unnamedFlagsAreKept : Obligations.UnnamedFlagsAreKept := by
  intro i s t h
  have ht := exec_next h
  cases i with
  | addXY x y | adcXY x y | subXY x y | sbbXY x y => trivial
  | orXY x y | andXY x y | xorXY x y => obtain ⟨-, -, rfl⟩ := ht; simp
  | cpN n | addN n | orN n | andN n | xorN n => simp [ht]
  | inc y | dec y => simp [State.writeTrigger_flags ht]
  | rrc y => obtain ⟨-, -, rfl⟩ := ht; simp
  | bit g m => simp [ht]
  | movXY x y => simp [State.writeTrigger_flags ht]
  | movXN x n => exact State.writeTrigger_flags ht
  | storeXY x y | loadXY x y | storeNN nn | loadNN nn => obtain ⟨-, rfl⟩ := ht; simp
  | movPC nn | jr nn => simp [ht]
  | dsz y => obtain ⟨-, -, rfl⟩ := ht; dsimp only; split <;> simp
  | exr n => obtain ⟨-, rfl⟩ := ht; simp
  | bset g m | bclr g m | btg g m => simp [ht]
  | ret n => obtain ⟨-, rfl⟩ := ht; simp
  | skip f n => rw [ht]; dsimp only; split <;> simp

end Sys2Proof.Machine
end

section
/-!
PROOFS. The statements of 10_state.md: the registers as cells of page zero (R22, R23), PC and SP after every instruction
(R28, R31), and the flag V, which no instruction reads (R30).
-/
namespace Sys2Proof.Machine

/-! ## Registers are cells of page zero (R22, R23) -/

/-- A cell that is no port is plain storage (R63). -/
theorem State.memWrite_plain {s : State} {a : Addr} (v : Nibble) (hi : ¬ s.inputCell a) (ho : ¬ s.outputCell a) :
    s.memWrite a v = s.setCell a v := by
  have ha : a ≠ s.outAddr := fun h => ho ((s.outAddr_iff a).1 h)
  rw [State.memWrite, (s.isInput_false_iff a).2 hi, if_neg Bool.false_ne_true, if_neg ha]

theorem regAddr_toNat (r : Reg) : (regAddr r).toNat = r.toNat := by
  rw [regAddr, BitVec.toNat_setWidth]; omega

theorem regAddr_ne {r : Reg} {a : Addr} (h : r.toNat ≠ a.toNat) : regAddr r ≠ a := fun e =>
  h (by rw [← regAddr_toNat, e])

/-- Settles O8: only R10 and R11 can lie at a port. -/
theorem registersAreCellsOfPageZero : Obligations.RegistersAreCellsOfPageZero := by
  intro s r v
  refine ⟨regAddr_toNat r, s.readReg_plain, s.memRead_input, fun h10 h11 => ?_⟩
  have hlt := r.isLt
  have hA : regAddr r ≠ 0x0A#8 := regAddr_ne fun e => h10 (BitVec.eq_of_toNat_eq e)
  have hB : regAddr r ≠ 0x0B#8 := regAddr_ne fun e => h11 (BitVec.eq_of_toNat_eq e)
  have hFA : regAddr r ≠ 0xFA#8 := regAddr_ne (by simp; omega)
  have hFB : regAddr r ≠ 0xFB#8 := regAddr_ne (by simp; omega)
  exact State.memWrite_plain v (s.not_inputCell_of hFB hB) (s.not_outputCell_of hFA hA)

/-! ## The stack pointer (R31) -/

@[simp] theorem exchangePairs_sp (s : State) (n : Nat) : (exchangePairs s n).sp = s.sp := by
  obtain ⟨-, -, hsp, -⟩ := exchangePairs_same s n
  exact hsp

/-- Settles O45, case by case on the instruction: the call moves SP in `State.writeTrigger`, RET in `State.pop`. -/
theorem stackPointerMovesByCallAndReturnOnly : Obligations.StackPointerMovesByCallAndReturnOnly := by
  intro i s t h
  have ht := exec_next h
  cases i with
  | movXY x y => simpa using State.writeTrigger_sp ht
  | movXN x n => exact State.writeTrigger_sp ht
  | inc y | dec y => simpa using State.writeTrigger_sp ht
  | ret n => obtain ⟨-, rfl⟩ := ht; simp
  | addXY x y | adcXY x y | subXY x y | sbbXY x y | orXY x y | andXY x y | xorXY x y | rrc y =>
    obtain ⟨-, -, rfl⟩ := ht; simp
  | dsz y => obtain ⟨-, -, rfl⟩ := ht; dsimp only; split <;> simp
  | storeXY x y | loadXY x y | storeNN nn | loadNN nn => obtain ⟨-, rfl⟩ := ht; simp
  | exr n => obtain ⟨-, rfl⟩ := ht; simp
  | movPC nn | jr nn | cpN n | addN n | orN n | andN n | xorN n => simp [ht]
  | bit g m | bset g m | bclr g m | btg g m => simp [ht]
  | skip f n => rw [ht]; dsimp only; split <;> simp

/-! ## The program counter (R28) -/

@[simp] theorem exchangePairs_pc (s : State) (n : Nat) : (exchangePairs s n).pc = s.pc := by
  obtain ⟨-, hpc, -, -⟩ := exchangePairs_same s n
  exact hpc

theorem State.stackEntry_eq (s : State) (k : BitVec 3) :
    s.stackEntry k = s.cell (entryCell k.toNat 2) ++ s.cell (entryCell k.toNat 1) ++ s.cell (entryCell k.toNat 0) := by
  rw [State.stackEntry, stackCell_add2, stackCell_add1, stackCell_eq]

/-- No register write reaches the stack (R32). -/
theorem State.stackEntry_writeReg (s : State) (r : Reg) (v : Nibble) (k : BitVec 3) :
    (s.writeReg r v).stackEntry k = s.stackEntry k := by
  obtain ⟨hlow, h1, h2, -⟩ := stackCell_range k
  have kept : ∀ c : Addr, 0x10 ≤ c.toNat → (s.writeReg r v).cell c = s.cell c := fun c hc =>
    (s.writeReg_wrote r v).kept c (regAddr_ne (by omega)).symm
  rw [State.stackEntry, State.stackEntry, kept _ hlow, kept _ (by omega), kept _ (by omega)]

theorem sp_pred {p : BitVec 3} (h : p ≠ 0#3) : (p - 1#3).toNat = p.toNat - 1 := by
  revert p; decide

theorem aluInc_result (a : Nibble) (f : Flags) : (aluInc a f).1 = a + 1#4 := rfl
theorem aluDec_result (a : Nibble) (f : Flags) : (aluDec a f).1 = a - 1#4 := rfl

/-- Settles O44, case by case on the instruction: the jump and the call set PC in `State.writeTrigger`, RET in
`State.pop`, and JR, DSZ, SKIP themselves. -/
theorem programCounterAfterEveryInstruction : Obligations.ProgramCounterAfterEveryInstruction := by
  intro i s t h
  have ht := exec_next h
  cases i with
  | jr nn => simp [ht]
  | dsz y => obtain ⟨-, -, rfl⟩ := ht; dsimp only; split <;> simp
  | skip f n => rw [ht]; dsimp only; split <;> simp
  | ret n =>
    obtain ⟨hsp, rfl⟩ := ht
    rw [State.pop_pc, State.writeReg_sp, State.stackEntry_writeReg, State.stackEntry_eq, sp_pred hsp]
  | movXY x y => simpa using State.writeTrigger_pc ht
  | movXN x n => exact State.writeTrigger_pc ht
  | inc y => simpa [aluInc_result] using State.writeTrigger_pc ht
  | dec y => simpa [aluDec_result] using State.writeTrigger_pc ht
  | addXY x y | adcXY x y | subXY x y | sbbXY x y | orXY x y | andXY x y | xorXY x y | rrc y =>
    obtain ⟨-, -, rfl⟩ := ht; simp
  | storeXY x y | loadXY x y | storeNN nn | loadNN nn => obtain ⟨-, rfl⟩ := ht; simp
  | exr n => obtain ⟨-, rfl⟩ := ht; simp
  | movPC nn | cpN n | addN n | orN n | andN n | xorN n => simp [ht]
  | bit g m | bset g m | bclr g m | btg g m => simp [ht]

end Sys2Proof.Machine
end

section
/-!
PROOFS. The flag V is read by no instruction (10_state.md R30): setting V commutes with every shared operation, and
each flag computation gives the same result, and the same C and Z, whatever V is.
-/
namespace Sys2Proof.Machine

/-! ## Setting V alone -/

/-- The flags with V set to `b`. -/
def Flags.setV (f : Flags) (b : Bool) : Flags := { f with v := b }

/-- The state with V set to `b`. -/
def State.setV (s : State) (b : Bool) : State := s.setFlags (s.flags.setV b)

/-- The answer with V set to `b` in its next state, if it has one. -/
def Result.setV (r : Result) (b : Bool) : Result :=
  match r with
  | .next s => .next (s.setV b)
  | .fault e => .fault e
  | .refused e => .refused e

/-- V does not matter to `m`: started from states that differ in V alone it is refused alike, or steps to states that
differ in V alone. -/
def BlindToV (m : State → Result) : Prop := ∀ (s : State) (b : Bool), ∃ c, m (s.setV b) = (m s).setV c

/-- V does not matter to a flag computation: the result is the same, and the flags differ in V alone. -/
def AluBlindToV (alu : Flags → Nibble × Flags) : Prop :=
  ∀ (f : Flags) (b : Bool), ∃ c, alu (f.setV b) = ((alu f).1, (alu f).2.setV c)

@[simp] theorem Result.setV_next (s : State) (b : Bool) : Result.setV (.next s) b = .next (s.setV b) := rfl
@[simp] theorem Result.setV_refused (e : Refusal) (b : Bool) : Result.setV (.refused e) b = .refused e := rfl

/-- A computation with which setting V commutes is blind to V. -/
theorem BlindToV.of_commutes {m : State → Result} (h : ∀ s b, m (s.setV b) = (m s).setV b) : BlindToV m :=
  fun s b => ⟨b, h s b⟩

/-! ## Setting V commutes with every shared operation -/

section
variable (s : State) (b : Bool)

@[simp] theorem State.setV_pc : (s.setV b).pc = s.pc := rfl
@[simp] theorem State.setV_sp : (s.setV b).sp = s.sp := rfl
@[simp] theorem State.setV_flags : (s.setV b).flags = s.flags.setV b := rfl
@[simp] theorem State.setV_cell (a : Addr) : (s.setV b).cell a = s.cell a := rfl
@[simp] theorem State.setV_target (v : Nibble) : (s.setV b).target v = s.target v := rfl
@[simp] theorem State.setV_bitCellRead (g : BitSel) : (s.setV b).bitCellRead g = s.bitCellRead g := by
  cases g <;> rfl
@[simp] theorem State.setV_bitCellWrite (g : BitSel) : (s.setV b).bitCellWrite g = s.bitCellWrite g := by
  cases g <;> rfl

@[simp] theorem State.setV_setPc (p : ProgAddr) : (s.setV b).setPc p = (s.setPc p).setV b := rfl
@[simp] theorem State.setV_setSp (p : BitVec 3) : (s.setV b).setSp p = (s.setSp p).setV b := rfl

/-- Writing the flags forgets the V that was set, and keeps the V they carry. -/
theorem State.setV_setFlags (f : Flags) (c : Bool) : (s.setV b).setFlags (f.setV c) = (s.setFlags f).setV c := rfl

@[simp] theorem State.setV_memRead (a : Addr) : (s.setV b).memRead a = ((s.memRead a).1, (s.memRead a).2.setV b) := by
  by_cases h : s.inputCell a
  · rw [s.memRead_input h, (s.setV b).memRead_input h]; rfl
  · rw [s.memRead_plain h, (s.setV b).memRead_plain h]; rfl

@[simp] theorem State.setV_memWrite (a : Addr) (v : Nibble) : (s.setV b).memWrite a v = (s.memWrite a v).setV b := by
  have hin : (s.setV b).isInput a = s.isInput a := rfl
  have hout : (s.setV b).outAddr = s.outAddr := rfl
  rw [State.memWrite, State.memWrite, hin, hout]
  split
  · rfl
  · split <;> rfl

@[simp] theorem State.setV_readReg (r : Reg) : (s.setV b).readReg r = ((s.readReg r).1, (s.readReg r).2.setV b) :=
  s.setV_memRead b _

@[simp] theorem State.setV_writeReg (r : Reg) (v : Nibble) : (s.setV b).writeReg r v = (s.writeReg r v).setV b :=
  s.setV_memWrite b _ v

@[simp] theorem State.setV_pairAddr (x y : Reg) :
    (s.setV b).pairAddr x y = ((s.pairAddr x y).1, (s.pairAddr x y).2.setV b) := by simp [State.pairAddr]

@[simp] theorem State.setV_push (ra : ProgAddr) : (s.setV b).push ra = (s.push ra).setV b := by simp [State.push]

@[simp] theorem State.setV_jump (v : Nibble) : (s.setV b).jump v = (s.jump v).setV b := rfl

@[simp] theorem State.setV_call (v : Nibble) : (s.setV b).call v = (s.call v).setV b := by simp [State.call]

@[simp] theorem State.setV_pop : (s.setV b).pop = s.pop.setV b := rfl

theorem State.setV_writeTrigger (r : Reg) (v : Nibble) :
    (s.setV b).writeTrigger r v = (s.writeTrigger r v).setV b := by
  simp only [State.writeTrigger, State.setV_writeReg, State.setV_jump, State.setV_call, State.setV_sp]
  split
  · rfl
  · split
    · split <;> rfl
    · rfl

theorem State.setV_explicitRead (a : Addr) {k : Nibble → State → Result}
    (hk : ∀ v t, k v (t.setV b) = (k v t).setV b) :
    (s.setV b).explicitRead a k = (s.explicitRead a k).setV b := by
  rw [State.explicitRead, State.explicitRead, State.setV_memRead]
  cases explicitReadRefusal a with
  | none => exact hk _ _
  | some e => rfl

theorem State.setV_explicitWrite (a : Addr) (v : Nibble) :
    (s.setV b).explicitWrite a v = (s.explicitWrite a v).setV b := by
  rw [State.explicitWrite, State.explicitWrite, State.setV_memWrite]
  cases explicitWriteRefusal a <;> rfl

theorem exchangePairs_setV (n : Nat) : exchangePairs (s.setV b) n = (exchangePairs s n).setV b := by
  induction n with
  | zero => rfl
  | succ n ih => simp [exchangePairs, exchangePair, ih]

end

/-! ## V does not matter to any flag computation -/

section
variable (a b n : Nibble)

theorem aluAdd_blindToV : AluBlindToV (aluAdd a b) := fun f _ => ⟨(aluAdd a b f).2.v, rfl⟩
theorem aluAdc_blindToV : AluBlindToV (aluAdc a b) := fun f _ => ⟨(aluAdc a b f).2.v, rfl⟩
theorem aluSub_blindToV : AluBlindToV (aluSub a b) := fun f _ => ⟨(aluSub a b f).2.v, rfl⟩
theorem aluSbb_blindToV : AluBlindToV (aluSbb a b) := fun f _ => ⟨(aluSbb a b f).2.v, rfl⟩
theorem aluOr_blindToV : AluBlindToV (aluOr a b) := fun _ v => ⟨v, rfl⟩
theorem aluAnd_blindToV : AluBlindToV (aluAnd a b) := fun _ v => ⟨v, rfl⟩
theorem aluXor_blindToV : AluBlindToV (aluXor a b) := fun _ v => ⟨v, rfl⟩
theorem aluAddN_blindToV : AluBlindToV (aluAddN a n) := fun _ v => ⟨v, rfl⟩
theorem aluOrN_blindToV : AluBlindToV (aluOrN a n) := fun _ v => ⟨v, rfl⟩
theorem aluAndN_blindToV : AluBlindToV (aluAndN a n) := fun _ v => ⟨v, rfl⟩
theorem aluXorN_blindToV : AluBlindToV (aluXorN a n) := fun _ v => ⟨v, rfl⟩
theorem aluInc_blindToV : AluBlindToV (aluInc a) := fun _ v => ⟨v, rfl⟩
theorem aluDec_blindToV : AluBlindToV (aluDec a) := fun _ v => ⟨v, rfl⟩
theorem aluRrc_blindToV : AluBlindToV (aluRrc a) := fun _ v => ⟨v, rfl⟩

end

theorem cpFlags_setV (a n : Nibble) (f : Flags) (b : Bool) : cpFlags a n (f.setV b) = (cpFlags a n f).setV b := rfl
theorem bitFlags_setV (v : Nibble) (m : BitVec 2) (f : Flags) (b : Bool) :
    bitFlags v m (f.setV b) = (bitFlags v m f).setV b := rfl

/-- No condition of SKIP tests V (R90). -/
theorem condHolds_setV (k : SkipCond) (f : Flags) (b : Bool) : condHolds k (f.setV b) = condHolds k f := by
  cases k <;> rfl

/-! ## V does not matter to any shape of instruction -/

theorem execRR_blindToV {alu : Nibble → Nibble → Flags → Nibble × Flags} (halu : ∀ a b, AluBlindToV (alu a b))
    (x y : Reg) : BlindToV (execRR alu x y) := by
  intro s b
  obtain ⟨d, hd⟩ := halu (s.readReg x).1 ((s.readReg x).2.readReg y).1 s.flags b
  refine ⟨d, ?_⟩
  simp only [execRR, State.setV_readReg, State.setV_flags, hd, State.setV_writeReg, State.setV_setFlags]
  split <;> rfl

theorem execR0N_blindToV {alu : Nibble → Nibble → Flags → Nibble × Flags} (halu : ∀ a n, AluBlindToV (alu a n))
    (n : Nibble) : BlindToV (execR0N alu n) := by
  intro s b
  obtain ⟨d, hd⟩ := halu (s.cell 0x00#8) n s.flags b
  refine ⟨d, ?_⟩
  simp only [execR0N_eq, State.setV_cell, State.setV_flags, hd, State.setV_writeReg, State.setV_setFlags,
    Result.setV_next]

theorem execUnaryTrigger_blindToV {alu : Nibble → Flags → Nibble × Flags} (halu : ∀ a, AluBlindToV (alu a))
    (y : Reg) : BlindToV (execUnaryTrigger alu y) := by
  intro s b
  obtain ⟨d, hd⟩ := halu (s.readReg y).1 s.flags b
  refine ⟨d, ?_⟩
  simp only [execUnaryTrigger, State.setV_readReg, State.setV_flags, hd, State.setV_setFlags,
    State.setV_writeTrigger]

theorem execBitWrite_blindToV (f : Nibble → Nibble → Nibble) (g : BitSel) (m : BitVec 2) :
    BlindToV (execBitWrite f g m) :=
  .of_commutes fun s b => by
    simp only [execBitWrite_eq, State.setV_bitCellWrite, State.setV_cell, State.setV_memWrite, Result.setV_next]

theorem execMovXY_blindToV (x y : Reg) : BlindToV (execMovXY x y) :=
  .of_commutes fun s b => by simp only [execMovXY, State.setV_readReg, State.setV_writeTrigger]

theorem execMovXN_blindToV (x : Reg) (n : Nibble) : BlindToV (execMovXN x n) :=
  .of_commutes fun s b => s.setV_writeTrigger b x n

theorem execStoreXY_blindToV (x y : Reg) : BlindToV (execStoreXY x y) :=
  .of_commutes fun s b => by
    simp only [execStoreXY, State.setV_pairAddr, State.setV_readReg, State.setV_explicitWrite]

theorem execStoreNN_blindToV (nn : Addr) : BlindToV (execStoreNN nn) :=
  .of_commutes fun s b => by simp only [execStoreNN, State.setV_readReg, State.setV_explicitWrite]

theorem execLoadXY_blindToV (x y : Reg) : BlindToV (execLoadXY x y) :=
  .of_commutes fun s b => by
    rw [execLoadXY, execLoadXY, State.setV_pairAddr]
    exact State.setV_explicitRead _ b _ fun v t => by rw [State.setV_writeReg, Result.setV_next]

theorem execLoadNN_blindToV (nn : Addr) : BlindToV (execLoadNN nn) :=
  .of_commutes fun s b =>
    s.setV_explicitRead b nn fun v t => by rw [State.setV_writeReg, Result.setV_next]

theorem execMovPC_blindToV (nn : BitVec 8) : BlindToV (execMovPC nn) :=
  .of_commutes fun s b => by simp only [execMovPC, State.setV_writeReg, Result.setV_next]

theorem execJr_blindToV (nn : BitVec 8) : BlindToV (execJr nn) := .of_commutes fun _ _ => rfl

theorem execCpN_blindToV (n : Nibble) : BlindToV (execCpN n) :=
  .of_commutes fun s b => by
    simp only [execCpN, State.setV_readReg, State.setV_flags, cpFlags_setV, State.setV_setFlags, Result.setV_next]

theorem execDsz_blindToV (y : Reg) : BlindToV (execDsz y) :=
  .of_commutes fun s b => by
    simp only [execDsz, State.setV_readReg, State.setV_writeReg, State.setV_pc, State.setV_setPc]
    split
    · rfl
    · split <;> rfl

theorem execExr_blindToV (n : Nat) : BlindToV (execExr n) :=
  .of_commutes fun s b => by
    rw [execExr, execExr, exchangePairs_setV]
    split <;> rfl

theorem execBit_blindToV (g : BitSel) (m : BitVec 2) : BlindToV (execBit g m) :=
  .of_commutes fun s b => by
    simp only [execBit, State.setV_bitCellRead, State.setV_memRead, State.setV_flags, bitFlags_setV,
      State.setV_setFlags, Result.setV_next]

theorem execRrc_blindToV (y : Reg) : BlindToV (execRrc y) := by
  intro s b
  obtain ⟨d, hd⟩ := aluRrc_blindToV (s.readReg y).1 s.flags b
  refine ⟨d, ?_⟩
  simp only [execRrc, State.setV_readReg, State.setV_flags, hd, State.setV_writeReg, State.setV_setFlags]
  split <;> rfl

theorem execRet_blindToV (n : Nibble) : BlindToV (execRet n) :=
  .of_commutes fun s b => by
    rw [execRet, execRet, State.setV_sp, State.setV_writeReg, State.setV_pop]
    split <;> rfl

theorem execSkip_blindToV (k : SkipCond) (n : Nat) : BlindToV (execSkip k n) :=
  .of_commutes fun s b => by
    rw [execSkip, execSkip, State.setV_flags, condHolds_setV]
    split <;> rfl

/-! ## V does not matter to any instruction -/

theorem exec_blindToV (i : Instr) : BlindToV (exec i) := by
  cases i with
  | addXY x y => exact execRR_blindToV aluAdd_blindToV x y
  | adcXY x y => exact execRR_blindToV aluAdc_blindToV x y
  | subXY x y => exact execRR_blindToV aluSub_blindToV x y
  | sbbXY x y => exact execRR_blindToV aluSbb_blindToV x y
  | orXY x y => exact execRR_blindToV aluOr_blindToV x y
  | andXY x y => exact execRR_blindToV aluAnd_blindToV x y
  | xorXY x y => exact execRR_blindToV aluXor_blindToV x y
  | movXY x y => exact execMovXY_blindToV x y
  | movXN x n => exact execMovXN_blindToV x n
  | storeXY x y => exact execStoreXY_blindToV x y
  | loadXY x y => exact execLoadXY_blindToV x y
  | storeNN nn => exact execStoreNN_blindToV nn
  | loadNN nn => exact execLoadNN_blindToV nn
  | movPC nn => exact execMovPC_blindToV nn
  | jr nn => exact execJr_blindToV nn
  | cpN n => exact execCpN_blindToV n
  | addN n => exact execR0N_blindToV aluAddN_blindToV n
  | inc y => exact execUnaryTrigger_blindToV aluInc_blindToV y
  | dec y => exact execUnaryTrigger_blindToV aluDec_blindToV y
  | dsz y => exact execDsz_blindToV y
  | orN n => exact execR0N_blindToV aluOrN_blindToV n
  | andN n => exact execR0N_blindToV aluAndN_blindToV n
  | xorN n => exact execR0N_blindToV aluXorN_blindToV n
  | exr n => exact execExr_blindToV n
  | bit g m => exact execBit_blindToV g m
  | bset g m => exact execBitWrite_blindToV (fun v b => v ||| b) g m
  | bclr g m => exact execBitWrite_blindToV (fun v b => v &&& ~~~b) g m
  | btg g m => exact execBitWrite_blindToV (fun v b => v ^^^ b) g m
  | rrc y => exact execRrc_blindToV y
  | ret n => exact execRet_blindToV n
  | skip k n => exact execSkip_blindToV k n

/-- Setting V leaves an answer refused, by the same name, or not refused. -/
theorem Result.setV_eq_refused_iff (r : Result) (c : Bool) (e : Refusal) :
    r.setV c = .refused e ↔ r = .refused e := by
  cases r <;> simp [Result.setV]

/-- Settles O51: `exec_blindToV`, read for an answered next state and for a refusal. -/
theorem noInstructionReadsV : Obligations.NoInstructionReadsV := by
  intro i s b
  obtain ⟨c, hc⟩ := exec_blindToV i s b
  refine ⟨fun t ht => ⟨t.setV c, ?_, rfl⟩, fun e => ?_⟩
  · exact hc.trans (by rw [ht, Result.setV_next])
  · exact (Result.setV_eq_refused_iff _ c e).symm.trans (by rw [← hc]; rfl)

end Sys2Proof.Machine
end

section
/-!
PROOFS. Data memory and program memory as 20_memory.md states them, one read or write at a time: ordinary cells (R63),
the ports (R59 to R61), and the word every address holds (R71).
-/
namespace Sys2Proof.Machine

/-! ## The word every address holds (R71) -/

/-- Settles O5: the word is the one fetched, and `Fault` has no constructor. -/
theorem everyAddressHoldsAWordToRun : Obligations.EveryAddressHoldsAWordToRun := fun s =>
  ⟨s.fetch, fun _ => State.fetch_listed, State.fetch_unlisted, by rw [step_eq, s.advance_eq], nofun⟩

/-! ## Ordinary cells (R63) -/

/-- No write changes whether its own cell is an input cell: IOPOS is not stored at 0x0B. -/
theorem State.memWrite_inputCell {s : State} {a : Addr} (v : Nibble) :
    (s.memWrite a v).inputCell a ↔ s.inputCell a := by
  by_cases ha : a = 0xF3#8
  · have plain : ∀ u : State, ¬ u.inputCell a := fun u => by subst ha; exact u.not_inputCell_of (by decide) (by decide)
    exact iff_of_false (plain _) (plain _)
  · rw [State.inputCell, State.inputCell, State.ioposSet, State.ioposSet, s.memWrite_cell_other v (Ne.symm ha)]

/-- A read after a write gives the value and changes nothing. -/
theorem State.memRead_memWrite_same {s : State} {a : Addr} (v : Nibble) (h : ¬ s.inputCell a) :
    (s.memWrite a v).memRead a = (v, s.memWrite a v) := by
  rw [State.memRead_plain _ (mt (State.memWrite_inputCell v).1 h), s.memWrite_cell_same v h]

/-- A cell nothing has written holds its launch content. -/
theorem State.cell_unwritten {s : State} {a : Addr} (h : s.mem.read? a.toNat = none) : s.cell a = Config.launchCell a := by
  rw [State.cell, h, Option.getD_none]

/-- Settles O9: the read after a write, the frame of the write, and the launch content. -/
theorem ordinaryCellsReadTheLastWrite : Obligations.OrdinaryCellsReadTheLastWrite := fun s _ v h =>
  ⟨State.memRead_memWrite_same v h, fun _ hb => s.memWrite_cell_other v hb,
    fun hnone => by rw [s.memRead_plain h, State.cell_unwritten hnone]⟩

/-! ## The input cells (R60, R61) -/

/-- A write of an input cell stores a draw, whatever the value (R60). -/
theorem State.memWrite_input {s : State} {a : Addr} (v : Nibble) (h : s.inputCell a) :
    s.memWrite a v = (s.setCell a (Config.draw s.draws)).drawn := by
  rw [State.memWrite, (s.isInput_iff a).2 h, if_pos rfl]

/-- Settles O10: every read and every write of an input cell counts one draw. -/
theorem inputCellsReadDrawsAndForgetWrites : Obligations.InputCellsReadDrawsAndForgetWrites := by
  intro s a u v h
  have hin : s.inputCell a := h.imp_right (And.imp_right Bool.eq_false_iff.1)
  have hread := s.memRead_input hin
  have hnext : s.drawn.memRead a = (Config.draw (s.draws + 1), s.drawn.drawn) := s.drawn.memRead_input hin
  refine ⟨by rw [hread], by rw [hread, hnext], ?_, ?_, fun b hb => s.memWrite_cell_other v hb⟩
  · rw [State.memWrite_input u hin, State.memWrite_input v hin]
  · rw [State.memWrite_input v hin, State.drawn_out, State.setCell_out]

/-! ## The OUT location and the cells not selected (R59, R61) -/

/-- Settles O11: the OUT location is no input cell, so it keeps what it emits. -/
theorem outputCellLatchesAndEmits : Obligations.OutputCellLatchesAndEmits := by
  intro s a v o
  refine ⟨fun ha => ?_, fun ha => ?_⟩
  · have hout : s.outputCell a := (s.outAddr_iff a).1 ha
    exact ⟨by rw [State.memWrite_out, if_pos hout], State.memRead_memWrite_same v (s.not_input_of_output hout)⟩
  · have hout : ¬ s.outputCell a := fun hout => ha ((s.outAddr_iff a).2 hout)
    rw [State.memWrite_out, if_neg hout, List.append_nil]

/-- With IOPOS = 1 the ports lie on page 15, so 0x0A and 0x0B are plain; with IOPOS = 0 the OUT location is 0x0A, so
0xFA is plain. -/
theorem State.unselected_plain {s : State} {a : Addr}
    (h : (s.ioposSet ∧ (a = 0x0A#8 ∨ a = 0x0B#8)) ∨ (¬ s.ioposSet ∧ a = 0xFA#8)) :
    ¬ s.inputCell a ∧ ¬ s.outputCell a := by
  rcases h with ⟨hset, rfl | rfl⟩ | ⟨hclear, rfl⟩
  · simp [State.inputCell, State.outputCell, hset]
  · simp [State.inputCell, State.outputCell, hset]
  · simp [State.inputCell, State.outputCell, hclear]

/-- Settles O12: an unselected cell is neither an input cell nor the OUT location. -/
theorem unselectedPortCellsAllButFBAreStorage : Obligations.UnselectedPortCellsAllButFBAreStorage := by
  intro s a v h
  obtain ⟨hin, hout⟩ := State.unselected_plain (h.imp_right (And.imp_left Bool.eq_false_iff.1))
  exact ⟨s.memRead_plain hin, State.memWrite_plain v hin hout, State.memRead_memWrite_same v hin⟩

end Sys2Proof.Machine
end

section
/-!
PROOFS. The frame of every instruction over data memory (20_memory.md R53): `exec_wroteOnly` says once, for all 31
instructions, that exactly the cells of `writtenCells` may change and that the OUT location emits if it is one of them.
-/
namespace Sys2Proof.Machine

/-! ## Which cells a computation writes -/

/-- From `s` to `t` no cell but those of `cells` changed, and the OUT location's new content was emitted if it is one of
them, nothing otherwise (R53, R59). -/
structure WroteOnly (cells : List Addr) (s t : State) : Prop where
  kept : ∀ b, b ∉ cells → t.cell b = s.cell b
  emitted : t.out = s.out ++ (if s.outAddr ∈ cells then [t.cell s.outAddr] else [])

/-- The OUT location by IOPOS (R59), as the statements write it. -/
theorem State.outAddr_eq (s : State) :
    s.outAddr = if (s.cell 0xF3#8).getLsbD 1 = true then 0xFA#8 else 0x0A#8 := rfl

theorem State.outAddr_cases (s : State) : s.outAddr = 0xFA#8 ∨ s.outAddr = 0x0A#8 := by
  rw [State.outAddr_eq]; split <;> simp

/-- The OUT location depends on the cell 0xF3 alone. -/
theorem State.outAddr_congr {s t : State} (h : t.cell 0xF3#8 = s.cell 0xF3#8) : t.outAddr = s.outAddr := by
  rw [State.outAddr_eq, State.outAddr_eq, h]

theorem State.outAddr_notMem {s : State} {cells : List Addr} (hFA : 0xFA#8 ∉ cells) (hA : 0x0A#8 ∉ cells) :
    s.outAddr ∉ cells := by
  rcases s.outAddr_cases with h | h <;> rwa [h]

section
variable {s s' t t' u : State} {cells cells' : List Addr}

theorem WroteOnly.nothing (hcell : ∀ b, t.cell b = s.cell b) (hout : t.out = s.out) : WroteOnly [] s t where
  kept := fun b _ => hcell b
  emitted := by simp [hout]

/-- Cells that hold no OUT location emit nothing. -/
theorem WroteOnly.silent (hkept : ∀ b, b ∉ cells → t.cell b = s.cell b) (hout : t.out = s.out)
    (ho : s.outAddr ∉ cells) : WroteOnly cells s t where
  kept := hkept
  emitted := by rw [if_neg ho, hout, List.append_nil]

/-- The start may be replaced by a state with the same cells and events, such as the one before the operands are read. -/
theorem WroteOnly.congr_left (h : WroteOnly cells s' t) (hcell : ∀ b, s'.cell b = s.cell b) (hout : s'.out = s.out) :
    WroteOnly cells s t where
  kept := fun b hb => (h.kept b hb).trans (hcell b)
  emitted := by rw [← State.outAddr_congr (hcell _), ← hout]; exact h.emitted

/-- The end may be replaced by a state with the same cells and events, such as one with other flags. -/
theorem WroteOnly.congr_right (h : WroteOnly cells s t) (hcell : ∀ b, t'.cell b = t.cell b) (hout : t'.out = t.out) :
    WroteOnly cells s t' where
  kept := fun b hb => (hcell b).trans (h.kept b hb)
  emitted := by rw [hout, hcell]; exact h.emitted

theorem WroteOnly.congr_cells (h : WroteOnly cells s t) (hmem : ∀ a, a ∈ cells' ↔ a ∈ cells) :
    WroteOnly cells' s t where
  kept := fun b hb => h.kept b (mt (hmem b).2 hb)
  emitted := by simp only [hmem]; exact h.emitted

/-- Two computations in a row, the first leaving IOPOS alone and not both writing the OUT location. -/
theorem WroteOnly.trans (h : WroteOnly cells s t) (h' : WroteOnly cells' t u) (hF3 : 0xF3#8 ∉ cells)
    (ho : s.outAddr ∈ cells → s.outAddr ∉ cells') : WroteOnly (cells ++ cells') s u where
  kept := fun b hb => by
    rw [List.mem_append, not_or] at hb
    exact (h'.kept b hb.2).trans (h.kept b hb.1)
  emitted := by
    have hout' := h'.emitted
    rw [State.outAddr_congr (h.kept _ hF3), h.emitted] at hout'
    by_cases h1 : s.outAddr ∈ cells
    · have h2 := ho h1
      simpa [h1, h2, h'.kept _ h2] using hout'
    · simpa [h1] using hout'

end

/-! ## The shared operations -/

section
variable (s : State)

theorem State.memWrite_wroteOnly (a : Addr) (v : Nibble) : WroteOnly [a] s (s.memWrite a v) where
  kept := fun b hb => s.memWrite_cell_other v (by simpa using hb)
  emitted := by
    rw [State.memWrite_out]
    by_cases ho : s.outputCell a
    · have ha : s.outAddr = a := ((s.outAddr_iff a).2 ho).symm
      simp [ha, ho, s.memWrite_cell_same v (s.not_input_of_output ho)]
    · have ha : s.outAddr ≠ a := fun e => ho ((s.outAddr_iff a).1 e.symm)
      simp [ha, ho]

theorem State.writeReg_wroteOnly (r : Reg) (v : Nibble) : WroteOnly [regAddr r] s (s.writeReg r v) :=
  s.memWrite_wroteOnly _ v

/-- The stack lies below the ports of page 15 and above those of page 0 (R32). -/
theorem entryCell_range (k : BitVec 3) {j : Nat} (hj : j ≤ 2) :
    0x10 ≤ (entryCell k.toNat j).toNat ∧ (entryCell k.toNat j).toNat < 0x30 := by
  have hk := k.isLt
  rw [entryCell, BitVec.toNat_ofNat, Nat.mod_eq_of_lt] <;> omega

/-- The cells the register write with the trigger writes: for JSR also the three of the stack entry numbered SP. -/
def State.triggerCells (r : Reg) : List Addr :=
  if r = 12#4 then [regAddr r, entryCell s.sp.toNat 0, entryCell s.sp.toNat 1, entryCell s.sp.toNat 2]
  else [regAddr r]

theorem State.mem_triggerCells {r : Reg} {a : Addr} (h : a ∈ s.triggerCells r) :
    a = regAddr r ∨ (r = 12#4 ∧ ∃ j ≤ 2, a = entryCell s.sp.toNat j) := by
  rw [State.triggerCells] at h
  split at h
  · next hr =>
    simp only [List.mem_cons, List.not_mem_nil, or_false] at h
    rcases h with h | h | h | h
    · exact .inl h
    · exact .inr ⟨hr, 0, by omega, h⟩
    · exact .inr ⟨hr, 1, by omega, h⟩
    · exact .inr ⟨hr, 2, by omega, h⟩
  · exact .inl (List.mem_singleton.1 h)

variable {s} in
theorem State.writeTrigger_wroteOnly {t : State} {r : Reg} {v : Nibble} (h : s.writeTrigger r v = .next t) :
    WroteOnly (s.triggerCells r) s t := by
  by_cases h12 : r = 12#4
  · have ho : ¬ s.outputCell (regAddr r) := by subst h12; exact s.not_outputCell_of (by decide) (by decide)
    refine .silent (fun b hb => ?_) (by rw [State.writeTrigger_out h, if_neg ho, List.append_nil]) (fun hmem => ?_)
    · simp only [State.triggerCells, h12, if_true, List.mem_cons, List.not_mem_nil, or_false, not_or] at hb
      obtain ⟨hr, h0, h1, h2⟩ := hb
      exact State.writeTrigger_kept h (by rwa [h12]) fun _ => ⟨h0, h1, h2⟩
    · rcases s.mem_triggerCells hmem with e | ⟨-, j, hj, e⟩
      · exact ho ((s.outAddr_iff _).1 e.symm)
      · have hrange := entryCell_range s.sp hj
        rcases s.outAddr_cases with e' | e' <;> rw [← e, e'] at hrange <;> simp at hrange
  · have hcells : s.triggerCells r = [regAddr r] := if_neg h12
    rw [hcells]
    rcases s.writeTrigger_cases h with ⟨rfl, rfl⟩ | ⟨rfl, -, -⟩ | ⟨-, -, rfl⟩
    · exact (s.writeReg_wroteOnly _ v).congr_right (fun _ => rfl) rfl
    · exact absurd rfl h12
    · exact s.writeReg_wroteOnly r v

end

/-! ## The exchange of pairs (R191) -/

/-- The cells of the pairs 0 to n - 1. -/
def pairCells (n : Nat) : List Addr :=
  (List.range n).map (fun i => BitVec.ofNat 8 i) ++ (List.range n).map (fun i => BitVec.ofNat 8 (0xE0 + i))

theorem mem_pairCells_succ (n : Nat) (a : Addr) :
    a ∈ pairCells (n + 1) ↔ a ∈ pairCells n ++ [BitVec.ofNat 8 n, BitVec.ofNat 8 (0xE0 + n)] := by
  simp only [pairCells, List.range_succ, List.map_append, List.map_cons, List.map_nil, List.mem_append,
    List.mem_cons, List.not_mem_nil, or_false]
  tauto

/-- The pairs lie in the first `n` cells of page 0 and of page 14. -/
theorem pairCells_range {n : Nat} (hn : n ≤ 12) {a : Addr} (h : a ∈ pairCells n) :
    a.toNat < n ∨ (0xE0 ≤ a.toNat ∧ a.toNat < 0xE0 + n) := by
  simp only [pairCells, List.mem_append, List.mem_map, List.mem_range] at h
  rcases h with ⟨i, hi, rfl⟩ | ⟨i, hi, rfl⟩ <;> rw [BitVec.toNat_ofNat] <;> omega

theorem notMem_singleton_ofNat {a : Addr} {i : Nat} (hi : i < 256) (h : a.toNat ≠ i) : a ∉ [BitVec.ofNat 8 i] := by
  intro e
  rw [List.mem_singleton.1 e, BitVec.toNat_ofNat, Nat.mod_eq_of_lt hi] at h
  exact h rfl

theorem exchangePair_wroteOnly (s : State) {n : Nat} (hn : n < 12) :
    WroteOnly [BitVec.ofNat 8 n, BitVec.ofNat 8 (0xE0 + n)] s (exchangePair s n) := by
  have hpartner : 0xE0#8 + BitVec.ofNat 8 n = BitVec.ofNat 8 (0xE0 + n) := (BitVec.ofNat_add 0xE0 n).symm
  simp only [exchangePair, hpartner]
  refine ((State.memWrite_wroteOnly _ _ _).congr_left (by simp) (by simp)).trans (State.memWrite_wroteOnly _ _ _)
    (notMem_singleton_ofNat (by omega) (by simp; omega)) fun _ => State.outAddr_notMem ?_ ?_
  · exact notMem_singleton_ofNat (by omega) (by simp; omega)
  · exact notMem_singleton_ofNat (by omega) (by simp; omega)

theorem exchangePairs_wroteOnly (s : State) {n : Nat} (hn : n ≤ 12) :
    WroteOnly (pairCells n) s (exchangePairs s n) := by
  induction n with
  | zero => exact .nothing (fun _ => rfl) rfl
  | succ n ih =>
    have hF3 : 0xF3#8 ∉ pairCells n := fun h => by
      have hrange := pairCells_range (by omega) h
      simp at hrange
      omega
    have honce : s.outAddr ∈ pairCells n → s.outAddr ∉ [BitVec.ofNat 8 n, BitVec.ofNat 8 (0xE0 + n)] := fun h => by
      have hrange := pairCells_range (by omega) h
      rw [List.mem_cons, not_or]
      exact ⟨fun e => notMem_singleton_ofNat (by omega) (by omega) (List.mem_singleton.2 e),
        notMem_singleton_ofNat (by omega) (by omega)⟩
    exact ((ih (by omega)).trans (exchangePair_wroteOnly _ hn) hF3 honce).congr_cells (mem_pairCells_succ n)

/-! ## Every instruction -/

/-- The register write of the two-register form. -/
theorem State.twoReads_writeReg_wroteOnly (s : State) (x y : Reg) (v : Nibble) (f : Flags) :
    WroteOnly [regAddr x] s (((s.readReg x).2.readReg y).2.writeReg x v |>.setFlags f) :=
  ((State.writeReg_wroteOnly _ x v).congr_left (by simp) (by simp)).congr_right (fun _ => rfl) rfl

/-- A register written after it is read. -/
theorem State.readReg_writeReg_wroteOnly (s : State) (y : Reg) (v : Nibble) :
    WroteOnly [regAddr y] s ((s.readReg y).2.writeReg y v) :=
  (State.writeReg_wroteOnly _ y v).congr_left (by simp) (by simp)

/-- R0 loaded after a read of memory. -/
theorem State.memRead_writeReg_wroteOnly (s : State) (a : Addr) (v : Nibble) :
    WroteOnly [0x00#8] s ((s.memRead a).2.writeReg r0 v) :=
  (State.writeReg_wroteOnly _ r0 v).congr_left (by simp) (by simp)

/-- What every instruction writes and emits. -/
theorem exec_wroteOnly {i : Instr} {s t : State} (h : exec i s = .next t) : WroteOnly (writtenCells i s) s t := by
  have ht := exec_next h
  cases i with
  | addXY x y | adcXY x y | subXY x y | sbbXY x y | orXY x y | andXY x y | xorXY x y =>
    obtain ⟨-, -, rfl⟩ := ht
    exact s.twoReads_writeReg_wroteOnly x y _ _
  | movXY x y =>
    have hw := (State.writeTrigger_wroteOnly ht).congr_left (s.readReg_cell y) (s.readReg_out y)
    rwa [State.triggerCells, State.readReg_sp] at hw
  | movXN x n => exact State.writeTrigger_wroteOnly ht
  | inc y | dec y =>
    have hw := (State.writeTrigger_wroteOnly ht).congr_left (s.readReg_cell y) (s.readReg_out y)
    rwa [State.triggerCells, State.setFlags_sp, State.readReg_sp] at hw
  | storeXY x y =>
    obtain ⟨-, rfl⟩ := ht
    exact (State.memWrite_wroteOnly _ _ _).congr_left (by simp) (by simp)
  | storeNN nn =>
    obtain ⟨-, rfl⟩ := ht
    exact s.memWrite_wroteOnly nn _
  | loadXY x y =>
    obtain ⟨-, rfl⟩ := ht
    exact (State.memRead_writeReg_wroteOnly _ _ _).congr_left (by simp) (by simp)
  | loadNN nn =>
    obtain ⟨-, rfl⟩ := ht
    exact s.memRead_writeReg_wroteOnly nn _
  | movPC nn =>
    rw [ht]
    exact (s.writeReg_wroteOnly 14#4 _).trans (State.writeReg_wroteOnly _ 15#4 _) (by decide) fun _ =>
      State.outAddr_notMem (by decide) (by decide)
  | addN n | orN n | andN n | xorN n =>
    rw [ht]
    exact (s.writeReg_wroteOnly 0#4 _).congr_right (fun _ => rfl) rfl
  | dsz y =>
    obtain ⟨-, -, rfl⟩ := ht
    split
    · exact (s.readReg_writeReg_wroteOnly y _).congr_right (fun _ => rfl) rfl
    · exact s.readReg_writeReg_wroteOnly y _
  | rrc y =>
    obtain ⟨-, -, rfl⟩ := ht
    exact (s.readReg_writeReg_wroteOnly y _).congr_right (fun _ => rfl) rfl
  | exr n =>
    obtain ⟨hn, rfl⟩ := ht
    exact exchangePairs_wroteOnly s hn
  | bset g m | bclr g m | btg g m =>
    rw [ht]
    exact s.memWrite_wroteOnly _ _
  | ret n =>
    obtain ⟨-, rfl⟩ := ht
    exact (s.writeReg_wroteOnly r0 n).congr_right (fun _ => rfl) rfl
  | jr nn | cpN n => rw [ht]; exact .nothing (fun _ => rfl) rfl
  | bit g m => rw [ht]; exact .nothing (by simp) (by simp)
  | skip f n => rw [ht]; split <;> exact .nothing (fun _ => rfl) rfl

/-- Settles O47: `exec_wroteOnly`, its frame. -/
theorem cellsNotWrittenAreKept : Obligations.CellsNotWrittenAreKept := fun _ _ _ h a ha =>
  (exec_wroteOnly h).kept a ha

/-- Settles O48: `exec_wroteOnly`, its output events. -/
theorem outputEventsOfEveryInstruction : Obligations.OutputEventsOfEveryInstruction := by
  intro i s t h
  have hout := (exec_wroteOnly h).emitted
  rw [State.outAddr_eq] at hout
  exact ⟨fun ho => by rw [hout, if_pos ho], fun ho => by rw [hout, if_neg ho, List.append_nil]⟩

end Sys2Proof.Machine
end

section
/-!
PROOFS. The cells of page 15 (20_memory.md R58, R62): of the cells an instruction writes only the OUT location and the
address of a memory move can lie there.
-/
namespace Sys2Proof.Machine

theorem regAddr_lt (r : Reg) : (regAddr r).toNat < 0x10 := by
  rw [regAddr_toNat]; exact r.isLt

theorem State.triggerCells_lt {s : State} {r : Reg} {a : Addr} (h : a ∈ s.triggerCells r) : a.toNat < 0x30 := by
  rcases s.mem_triggerCells h with rfl | ⟨-, j, hj, rfl⟩
  · exact (regAddr_lt r).trans (by decide)
  · exact (entryCell_range s.sp hj).2

/-- The cells a bit instruction writes: a register of page 0, or the OUT location. -/
theorem State.bitCellWrite_cases (s : State) (g : BitSel) :
    (s.bitCellWrite g).toNat < 0x10 ∨ s.bitCellWrite g = s.outAddr := by
  cases g with
  | r0 | r1 | r2 => exact .inl (by simp [State.bitCellWrite])
  | rs => exact .inr rfl

/-- A cell an instruction writes lies below page 15, or is the OUT location, or is the address of a memory move. -/
theorem writtenCells_cases {i : Instr} {s t : State} (h : exec i s = .next t) {a : Addr} (ha : a ∈ writtenCells i s) :
    a.toNat < 0xF0 ∨ a = s.outAddr ∨
      (explicitWriteRefusal a = none ∧ ((∃ x y, i = .storeXY x y ∧ s.pairOperand x y = a) ∨ i = .storeNN a)) := by
  have below {r : Reg} (e : a ∈ [regAddr r]) : a.toNat < 0xF0 := by
    rw [List.mem_singleton.1 e]; exact (regAddr_lt r).trans (by decide)
  have trigger {r : Reg} (e : a ∈ s.triggerCells r) : a.toNat < 0xF0 := (State.triggerCells_lt e).trans (by decide)
  have bit {g : BitSel} (e : a ∈ [s.bitCellWrite g]) : a.toNat < 0xF0 ∨ a = s.outAddr := by
    rw [List.mem_singleton.1 e]
    exact (s.bitCellWrite_cases g).imp_left fun hlt => hlt.trans (by decide)
  have ht := exec_next h
  cases i with
  | addXY x y | adcXY x y | subXY x y | sbbXY x y | orXY x y | andXY x y | xorXY x y => exact .inl (below ha)
  | dsz y | rrc y => exact .inl (below ha)
  | loadXY x y | loadNN nn | addN n | orN n | andN n | xorN n | ret n => exact .inl (below (r := 0#4) ha)
  | movXY x y | movXN x n | inc y | dec y => exact .inl (trigger ha)
  | storeXY x y =>
    obtain ⟨hopen, -⟩ := ht
    rw [List.mem_singleton.1 ha]
    exact .inr (.inr ⟨hopen, .inl ⟨x, y, rfl, rfl⟩⟩)
  | storeNN nn =>
    obtain ⟨hopen, -⟩ := ht
    rw [List.mem_singleton.1 ha]
    exact .inr (.inr ⟨hopen, .inr rfl⟩)
  | movPC nn =>
    rcases List.mem_cons.1 ha with e | e
    · exact .inl (below (r := 14#4) (List.mem_singleton.2 e))
    · exact .inl (below (r := 15#4) e)
  | exr n =>
    obtain ⟨hn, -⟩ := ht
    have hrange := pairCells_range hn ha
    exact .inl (by omega)
  | bset g m | bclr g m | btg g m => exact (bit ha).imp_right .inl
  | jr nn | cpN n | bit g m | skip f n => exact absurd ha List.not_mem_nil

/-- Settles O50: a changed cell is a written one, and a memory move to an undocumented cell is refused. -/
theorem controlCellsChangeOnlyByStores : Obligations.ControlCellsChangeOnlyByStores := by
  intro i s t h
  have written {a : Addr} (hne : t.cell a ≠ s.cell a) : a ∈ writtenCells i s :=
    not_not.1 (mt (cellsNotWrittenAreKept i s t h a) hne)
  refine ⟨fun a ha => ?_, fun hne => ?_⟩
  · have hrefused := explicitWriteRefusal_undocumented ha
    obtain ⟨hpage, -, hFA, -⟩ := ha
    by_contra hne
    rcases writtenCells_cases h (written hne) with hlow | hout | ⟨hopen, -⟩
    · omega
    · rcases s.outAddr_cases with e | e
      · exact hFA (hout.trans e)
      · rw [hout, e] at hpage; simp at hpage
    · simp [hrefused] at hopen
  · rcases writtenCells_cases h (written hne) with hlow | hout | ⟨-, hstore⟩
    · simp at hlow
    · rcases s.outAddr_cases with e | e <;> simp [e] at hout
    · exact hstore

end Sys2Proof.Machine
end

section
/-!
PROOFS. What every instruction keeps, as a relation between two states that each shared operation meets and that
composes: program memory (20_memory.md R68), the canonical form of data memory (R50) and SP within its bound
(10_state.md R31).
-/
namespace Sys2Proof.Machine

/-- From `s` to `t` program memory is as before, data memory stays in canonical form and SP within its bound. -/
structure KeepsInv (s t : State) : Prop where
  image : t.prog = s.prog
  data : s.mem.wf 256 = true → t.mem.wf 256 = true
  level : s.sp ≤ 5#3 → t.sp ≤ 5#3

section
variable {s t u : State}

theorem KeepsInv.trans (h : KeepsInv s t) (h' : KeepsInv t u) : KeepsInv s u where
  image := h'.image.trans h.image
  data := h'.data ∘ h.data
  level := h'.level ∘ h.level

/-- A change of the flags, PC, the output events or the draws alone. -/
theorem KeepsInv.of_same (hmem : t.mem = s.mem) (hprog : t.prog = s.prog) (hsp : t.sp = s.sp) : KeepsInv s t where
  image := hprog
  data := by rw [hmem]; exact id
  level := by rw [hsp]; exact id

/-- The invariant is kept where the relation holds. -/
theorem KeepsInv.inv (h : KeepsInv s t) (hs : s.Inv) : t.Inv := by
  obtain ⟨hmem, hprog, hsp⟩ := hs
  exact ⟨h.data hmem, by rwa [h.image], h.level hsp⟩

end

/-! ## The shared operations -/

section
variable (s : State)

theorem State.setFlags_keepsInv (f : Flags) : KeepsInv s (s.setFlags f) := .of_same rfl rfl rfl

theorem State.setPc_keepsInv (p : ProgAddr) : KeepsInv s (s.setPc p) := .of_same rfl rfl rfl

theorem State.memRead_keepsInv (a : Addr) : KeepsInv s (s.memRead a).2 := .of_same (by simp) (by simp) (by simp)

theorem State.readReg_keepsInv (r : Reg) : KeepsInv s (s.readReg r).2 := s.memRead_keepsInv _

theorem State.afterPair_keepsInv (x y : Reg) : KeepsInv s (s.afterPair x y) :=
  (s.readReg_keepsInv x).trans (State.readReg_keepsInv _ y)

theorem State.memWrite_keepsInv (a : Addr) (v : Nibble) : KeepsInv s (s.memWrite a v) where
  image := s.memWrite_prog a v
  data := s.memWrite_wf a v
  level := by rw [State.memWrite_sp]; exact id

theorem State.writeReg_keepsInv (r : Reg) (v : Nibble) : KeepsInv s (s.writeReg r v) := s.memWrite_keepsInv _ v

variable {s} in
/-- A call is answered only below the bound (R155). -/
theorem State.writeTrigger_level {t : State} {r : Reg} {v : Nibble} (h : s.writeTrigger r v = .next t)
    (hsp : s.sp ≤ 5#3) : t.sp ≤ 5#3 := by
  rw [State.writeTrigger_sp h]
  rcases s.writeTrigger_cases h with ⟨rfl, -⟩ | ⟨rfl, hfull, -⟩ | ⟨-, h12, -⟩
  · exact hsp
  · exact (sp_succ hfull).2
  · rwa [if_neg h12]

variable {s} in
theorem State.writeTrigger_keepsInv {t : State} {r : Reg} {v : Nibble} (h : s.writeTrigger r v = .next t) :
    KeepsInv s t where
  image := State.writeTrigger_prog h
  data := State.writeTrigger_wf h
  level := State.writeTrigger_level h

variable {s} in
/-- RET takes one level of at least one (R155). -/
theorem State.pop_keepsInv (h : s.sp ≠ 0#3) : KeepsInv s s.pop where
  image := rfl
  data := id
  level := fun hsp => by
    have hpred := sp_pred h
    rw [BitVec.le_def] at hsp ⊢
    rw [State.pop_sp, hpred]
    exact (Nat.sub_le _ _).trans hsp

theorem exchangePairs_keepsInv (n : Nat) : KeepsInv s (exchangePairs s n) where
  image := (exchangePairs_same s n).1
  data := exchangePairs_wf s n
  level := by rw [exchangePairs_sp]; exact id

end

/-! ## Every instruction -/

theorem exec_keepsInv {i : Instr} {s t : State} (h : exec i s = .next t) : KeepsInv s t := by
  have ht := exec_next h
  cases i with
  | addXY x y | adcXY x y | subXY x y | sbbXY x y | orXY x y | andXY x y | xorXY x y =>
    obtain ⟨-, -, rfl⟩ := ht
    exact ((s.afterPair_keepsInv x y).trans (State.writeReg_keepsInv _ x _)).trans (State.setFlags_keepsInv _ _)
  | movXY x y => exact (s.readReg_keepsInv y).trans (State.writeTrigger_keepsInv ht)
  | movXN x n => exact State.writeTrigger_keepsInv ht
  | inc y | dec y =>
    exact ((s.readReg_keepsInv y).trans (State.setFlags_keepsInv _ _)).trans (State.writeTrigger_keepsInv ht)
  | storeXY x y =>
    obtain ⟨-, rfl⟩ := ht
    exact (s.afterPair_keepsInv x y).trans (State.memWrite_keepsInv _ _ _)
  | storeNN nn =>
    obtain ⟨-, rfl⟩ := ht
    exact s.memWrite_keepsInv nn _
  | loadXY x y =>
    obtain ⟨-, rfl⟩ := ht
    exact ((s.afterPair_keepsInv x y).trans (State.memRead_keepsInv _ _)).trans (State.writeReg_keepsInv _ r0 _)
  | loadNN nn =>
    obtain ⟨-, rfl⟩ := ht
    exact (s.memRead_keepsInv nn).trans (State.writeReg_keepsInv _ r0 _)
  | movPC nn =>
    rw [ht]
    exact (s.writeReg_keepsInv 14#4 _).trans (State.writeReg_keepsInv _ 15#4 _)
  | addN n | orN n | andN n | xorN n =>
    rw [ht]
    exact (s.writeReg_keepsInv 0#4 _).trans (State.setFlags_keepsInv _ _)
  | dsz y =>
    obtain ⟨-, -, rfl⟩ := ht
    have hwrite := (s.readReg_keepsInv y).trans (State.writeReg_keepsInv _ y ((s.readReg y).1 - 1#4))
    split
    · exact hwrite.trans (State.setPc_keepsInv _ _)
    · exact hwrite
  | rrc y =>
    obtain ⟨-, -, rfl⟩ := ht
    exact ((s.readReg_keepsInv y).trans (State.writeReg_keepsInv _ y _)).trans (State.setFlags_keepsInv _ _)
  | exr n =>
    obtain ⟨-, rfl⟩ := ht
    exact exchangePairs_keepsInv s n
  | bset g m | bclr g m | btg g m =>
    rw [ht]
    exact s.memWrite_keepsInv _ _
  | ret n =>
    obtain ⟨hsp, rfl⟩ := ht
    exact (s.writeReg_keepsInv r0 n).trans (State.pop_keepsInv (by rwa [State.writeReg_sp]))
  | jr nn => rw [ht]; exact s.setPc_keepsInv _
  | cpN n => rw [ht]; exact s.setFlags_keepsInv _
  | bit g m =>
    rw [ht]
    exact (s.memRead_keepsInv _).trans (State.setFlags_keepsInv _ _)
  | skip f n =>
    rw [ht]
    split
    · exact s.setPc_keepsInv _
    · exact .of_same rfl rfl rfl

theorem step_keepsInv {s t : State} (h : step s = .next t) : KeepsInv s t := by
  rw [step_eq] at h
  exact (s.setPc_keepsInv _).trans (exec_keepsInv h)

/-- Settles O52: `step_keepsInv`, with all three of its parts. -/
theorem everyStepKeepsTheInvariant : Obligations.EveryStepKeepsTheInvariant := fun _ _ hs h =>
  (step_keepsInv h).inv hs

/-- Settles O49: `step_keepsInv`, program memory alone. -/
theorem stepKeepsProgramMemory : Obligations.StepKeepsProgramMemory := fun _ _ h => (step_keepsInv h).image

end Sys2Proof.Machine
end

section
/-!
PROOFS. The encoding (30_encoding.md): the fields of a word in each of its formats (R82, R83), the operand codes (R88 to
R91), and from them that decoding and encoding are inverse (R94, R95). The rows of the instruction list (R84) and the
printed words follow from that alone: a word that encodes an instruction decodes to it.
-/
namespace Sys2Proof

open Sys2Proof.Laws.EncodeMatchesRow (head4 head8 pair4 pair2)

/-! ## The fields of an assembled word (R82, R83)

The formats are: opcode, X, Y; opcode, NN; the two opcodes as one 8-bit head, then N; the head, then G and M. -/

section
variable (op x y : BitVec 4) (nn head : BitVec 8) (n : BitVec 4) (g m : BitVec 2)

theorem fieldOp_xy : fieldOp (op ++ x ++ y) = op :=
  (BitVec.extractLsb'_append_eq_of_le (by decide)).trans BitVec.extractLsb'_append_eq_left
theorem fieldX_xy : fieldX (op ++ x ++ y) = x :=
  (BitVec.extractLsb'_append_eq_of_le (by decide)).trans BitVec.extractLsb'_append_eq_right
theorem fieldY_xy : fieldY (op ++ x ++ y) = y := BitVec.extractLsb'_append_eq_right

theorem fieldOp_nn : fieldOp (op ++ nn) = op := BitVec.extractLsb'_append_eq_left
theorem fieldNN_nn : fieldNN (op ++ nn) = nn := BitVec.extractLsb'_append_eq_right

theorem fieldOp_n : fieldOp (head ++ n) = head.extractLsb' 4 4 := BitVec.extractLsb'_append_eq_of_le (by decide)
theorem fieldX_n : fieldX (head ++ n) = head.extractLsb' 0 4 := BitVec.extractLsb'_append_eq_of_le (by decide)
theorem fieldY_n : fieldY (head ++ n) = n := BitVec.extractLsb'_append_eq_right

theorem fieldOp_gm : fieldOp (head ++ g ++ m) = head.extractLsb' 4 4 :=
  (BitVec.extractLsb'_append_eq_of_le (by decide)).trans (BitVec.extractLsb'_append_eq_of_le (by decide))
theorem fieldX_gm : fieldX (head ++ g ++ m) = head.extractLsb' 0 4 :=
  (BitVec.extractLsb'_append_eq_of_le (by decide)).trans (BitVec.extractLsb'_append_eq_of_le (by decide))
theorem fieldG_gm : fieldG (head ++ g ++ m) = g :=
  (BitVec.extractLsb'_append_eq_of_le (by decide)).trans BitVec.extractLsb'_append_eq_right
theorem fieldM_gm : fieldM (head ++ g ++ m) = m := BitVec.extractLsb'_append_eq_right

end

/-! ## A word is its fields, in each format -/

section
variable (w : InstrWord)

theorem word_nn : fieldOp w ++ fieldNN w = w :=
  (BitVec.extractLsb'_append_extractLsb'_eq_extractLsb' rfl).trans BitVec.extractLsb'_eq_self

theorem fieldX_append_fieldY : fieldX w ++ fieldY w = fieldNN w :=
  BitVec.extractLsb'_append_extractLsb'_eq_extractLsb' rfl

theorem fieldG_append_fieldM : fieldG w ++ fieldM w = fieldY w :=
  BitVec.extractLsb'_append_extractLsb'_eq_extractLsb' rfl

theorem word_xy : fieldOp w ++ fieldX w ++ fieldY w = w := by
  rw [pair4, fieldX_append_fieldY, word_nn]

theorem word_gm : fieldOp w ++ fieldX w ++ fieldG w ++ fieldM w = w :=
  (pair2 _ _ _).trans (by rw [fieldG_append_fieldM, word_xy])

end

section
variable {w : InstrWord} {head : BitVec 8}

theorem word_n_of_head (h : fieldOp w ++ fieldX w = head) : head ++ fieldY w = w := by rw [← h, word_xy]

theorem word_gm_of_head (h : fieldOp w ++ fieldX w = head) : head ++ fieldG w ++ fieldM w = w := by rw [← h, word_gm]

/-- The head of a word with major opcode 0000 is its minor opcode. -/
theorem head_of_minor {minor : BitVec 4} (hop : fieldOp w = 0x0#4) (hx : fieldX w = minor)
    (hhead : 0x0#4 ++ minor = head) : fieldOp w ++ fieldX w = head := by rw [hop, hx, hhead]

end

/-! ## The operand codes (R88 to R91) -/

@[simp] theorem bitSelOfCode_bitSelCode (g : BitSel) : bitSelOfCode (bitSelCode g) = g := by cases g <;> rfl
@[simp] theorem condOfCode_condCode (f : SkipCond) : condOfCode (condCode f) = f := by cases f <;> rfl

@[simp] theorem bitSelCode_bitSelOfCode (g : BitVec 2) : bitSelCode (bitSelOfCode g) = g := by revert g; decide
@[simp] theorem condCode_condOfCode (f : BitVec 2) : condCode (condOfCode f) = f := by revert f; decide

@[simp] theorem ofNat_exrCountOfCode (n : BitVec 4) : BitVec.ofNat 4 (exrCountOfCode n) = n := by revert n; decide
@[simp] theorem ofNat_skipCountOfCode (m : BitVec 2) : BitVec.ofNat 2 (skipCountOfCode m) = m := by revert m; decide

theorem exr_wellFormed_iff (c : Nat) : (Instr.exr c).wellFormed = true ↔ 1 ≤ c ∧ c ≤ 16 := by simp [Instr.wellFormed]
theorem skip_wellFormed_iff (f : SkipCond) (c : Nat) : (Instr.skip f c).wellFormed = true ↔ 1 ≤ c ∧ c ≤ 4 := by
  simp [Instr.wellFormed]

theorem exrCountOfCode_ofNat {c : Nat} (hc : 1 ≤ c ∧ c ≤ 16) : exrCountOfCode (BitVec.ofNat 4 c) = c := by
  obtain ⟨hlow, hhigh⟩ := hc
  interval_cases c <;> rfl

theorem skipCountOfCode_ofNat {c : Nat} (hc : 1 ≤ c ∧ c ≤ 4) : skipCountOfCode (BitVec.ofNat 2 c) = c := by
  obtain ⟨hlow, hhigh⟩ := hc
  interval_cases c <;> rfl

theorem exrCountOfCode_wellFormed (n : BitVec 4) : (Instr.exr (exrCountOfCode n)).wellFormed = true := by
  rw [exr_wellFormed_iff]; revert n; decide

theorem skipCountOfCode_wellFormed (f : SkipCond) (m : BitVec 2) :
    (Instr.skip f (skipCountOfCode m)).wellFormed = true := by
  rw [skip_wellFormed_iff]; revert m; decide

/-- The codes of the register selector (R91), as the statements write them. -/
theorem bitSelOfCode_eq_ite (g : BitVec 2) :
    bitSelOfCode g = if g = 0#2 then .r0 else if g = 1#2 then .r1 else if g = 2#2 then .r2 else .rs := by
  revert g; decide

/-! ## Decode after encode (R94) -/

/-- The fields of the encoded word are the operands, format by format. At one instruction, such as `.movXY x y`, this is
its row of R84 with the word written out: `decode (0x8#4 ++ x ++ y) = .movXY x y`. -/
theorem decode_encode {i : Instr} (hi : i.wellFormed = true) : decode (encode i) = i := by
  cases i with
  | addXY x y | adcXY x y | subXY x y | sbbXY x y | orXY x y | andXY x y | xorXY x y | movXY x y | movXN x y
  | storeXY x y | loadXY x y =>
    rw [encode, decode, fieldOp_xy, fieldX_xy, fieldY_xy]; rfl
  | storeNN nn | loadNN nn | movPC nn | jr nn =>
    rw [encode, decode, fieldOp_nn, fieldNN_nn]; rfl
  | cpN n | addN n | inc n | dec n | dsz n | orN n | andN n | xorN n | rrc n | ret n =>
    rw [encode, decode, decodeMinor, fieldOp_n, fieldX_n, fieldY_n]; rfl
  | exr c =>
    have hc := exrCountOfCode_ofNat ((exr_wellFormed_iff c).1 hi)
    rw [encode, decode, decodeMinor, fieldOp_n, fieldX_n, fieldY_n, hc]; rfl
  | bit g m | bset g m | bclr g m | btg g m =>
    rw [encode, decode, decodeMinor, fieldOp_gm, fieldX_gm, fieldG_gm, fieldM_gm, bitSelOfCode_bitSelCode]; rfl
  | skip f c =>
    have hc := skipCountOfCode_ofNat ((skip_wellFormed_iff f c).1 hi)
    rw [encode, decode, decodeMinor, fieldOp_gm, fieldX_gm, fieldG_gm, fieldM_gm, condOfCode_condCode, hc]; rfl

/-! ## Encode after decode (R95) -/

/-- Major opcode 0000: each of the sixteen minor opcodes names an instruction, whose word has the same fields. -/
theorem encode_decodeMinor {w : InstrWord} (hop : fieldOp w = 0x0#4) :
    (decodeMinor w).wellFormed = true ∧ encode (decodeMinor w) = w := by
  unfold decodeMinor
  split
  case h_1 hx | h_2 hx | h_3 hx | h_4 hx | h_5 hx | h_6 hx | h_7 hx | h_8 hx | h_14 hx | h_15 hx =>
    exact ⟨rfl, word_n_of_head (head_of_minor hop hx rfl)⟩
  case h_9 hx =>
    rw [encode, ofNat_exrCountOfCode]
    exact ⟨exrCountOfCode_wellFormed _, word_n_of_head (head_of_minor hop hx rfl)⟩
  case h_10 hx | h_11 hx | h_12 hx | h_13 hx =>
    rw [encode, bitSelCode_bitSelOfCode]
    exact ⟨rfl, word_gm_of_head (head_of_minor hop hx rfl)⟩
  case h_16 =>
    have hx : fieldX w = 0xF#4 := by generalize fieldX w = x at *; revert x; decide
    rw [encode, condCode_condOfCode, ofNat_skipCountOfCode]
    exact ⟨skipCountOfCode_wellFormed _ _, word_gm_of_head (head_of_minor hop hx rfl)⟩

theorem encode_decode (w : InstrWord) : (decode w).wellFormed = true ∧ encode (decode w) = w := by
  unfold decode
  split
  case h_1 hop | h_2 hop | h_3 hop | h_4 hop | h_5 hop | h_6 hop | h_7 hop | h_8 hop | h_9 hop | h_10 hop | h_11 hop =>
    exact ⟨rfl, by rw [encode, ← hop, word_xy]⟩
  case h_12 hop | h_13 hop | h_14 hop | h_15 hop => exact ⟨rfl, by rw [encode, ← hop, word_nn]⟩
  case h_16 =>
    have hop : fieldOp w = 0x0#4 := by generalize fieldOp w = op at *; revert op; decide
    exact encode_decodeMinor hop

/-- Settles O1: the two directions, `decode_encode` and `encode_decode`. -/
theorem decodeAndEncodeAreInverse : Obligations.DecodeAndEncodeAreInverse :=
  ⟨fun _ => decode_encode, encode_decode⟩

/-! ## The rows of the instruction list (R84)

A row's match fixes the opcode, so the word is the encoding of the row's instruction on the word's own fields. -/

theorem fieldOp_of_match {w : InstrWord} {op : BitVec 4} (h : w &&& 0xF00#12 = op ++ 0x00#8) : fieldOp w = op := by
  have hw : w &&& 0xF00#12 = fieldOp w ++ 0x00#8 := by rw [← head4 (fieldOp w) (fieldNN w), word_nn]
  rw [← fieldOp_nn op 0x00#8, ← h, hw, fieldOp_nn]

theorem head_of_match {w : InstrWord} {head : BitVec 8} (h : w &&& 0xFF0#12 = head ++ 0x0#4) :
    fieldOp w ++ fieldX w = head := by
  have hw : w &&& 0xFF0#12 = fieldOp w ++ fieldX w ++ 0x0#4 := by
    rw [← head8 (fieldOp w ++ fieldX w) (fieldY w), word_xy]
  have hhead : fieldOp w ++ fieldX w ++ 0x0#4 = head ++ 0x0#4 := hw.symm.trans h
  calc fieldOp w ++ fieldX w
      = (fieldOp w ++ fieldX w ++ 0x0#4).extractLsb' 4 8 := BitVec.extractLsb'_append_eq_left.symm
    _ = (head ++ 0x0#4).extractLsb' 4 8 := by rw [hhead]
    _ = head := BitVec.extractLsb'_append_eq_left

section
variable {w : InstrWord} {i : Instr} (hi : i.wellFormed = true)
include hi

theorem decode_of_encode (he : encode i = w) : decode w = i := he ▸ decode_encode hi

theorem decode_xy_of_match (op : BitVec 4) (he : encode i = op ++ fieldX w ++ fieldY w)
    (h : w &&& 0xF00#12 = op ++ 0x00#8) : decode w = i :=
  decode_of_encode hi (by rw [he, ← fieldOp_of_match h, word_xy])

theorem decode_nn_of_match (op : BitVec 4) (he : encode i = op ++ fieldNN w)
    (h : w &&& 0xF00#12 = op ++ 0x00#8) : decode w = i :=
  decode_of_encode hi (by rw [he, ← fieldOp_of_match h, word_nn])

theorem decode_n_of_match (head : BitVec 8) (he : encode i = head ++ fieldY w)
    (h : w &&& 0xFF0#12 = head ++ 0x0#4) : decode w = i :=
  decode_of_encode hi (by rw [he, word_n_of_head (head_of_match h)])

theorem decode_gm_of_match (head : BitVec 8) (he : encode i = head ++ fieldG w ++ fieldM w)
    (h : w &&& 0xFF0#12 = head ++ 0x0#4) : decode w = i :=
  decode_of_encode hi (by rw [he, word_gm_of_head (head_of_match h)])

end

theorem decode_exr_of_match {w : InstrWord} (h : w &&& 0xFF0#12 = 0x080#12) :
    decode w = .exr (exrCountOfCode (fieldY w)) :=
  decode_n_of_match (exrCountOfCode_wellFormed _) 0x08#8 (by rw [encode, ofNat_exrCountOfCode]) h

theorem decode_skip_of_match {w : InstrWord} (h : w &&& 0xFF0#12 = 0x0F0#12) :
    decode w = .skip (condOfCode (fieldG w)) (skipCountOfCode (fieldM w)) :=
  decode_gm_of_match (skipCountOfCode_wellFormed _ _) 0x0F#8
    (by rw [encode, condCode_condOfCode, ofNat_skipCountOfCode]) h

/-- Settles O2, row by row in the order of R84. -/
theorem decodeFollowsTheInstructionList : Obligations.DecodeFollowsTheInstructionList := by
  intro w x y nn g m sel
  have hsel : bitSelCode sel = fieldG w := by
    rw [← bitSelCode_bitSelOfCode (fieldG w), bitSelOfCode_eq_ite]; rfl
  refine ⟨
    decode_xy_of_match rfl 0x1#4 rfl, decode_xy_of_match rfl 0x2#4 rfl, decode_xy_of_match rfl 0x3#4 rfl,
    decode_xy_of_match rfl 0x4#4 rfl, decode_xy_of_match rfl 0x5#4 rfl, decode_xy_of_match rfl 0x6#4 rfl,
    decode_xy_of_match rfl 0x7#4 rfl, decode_xy_of_match rfl 0x8#4 rfl, decode_xy_of_match rfl 0x9#4 rfl,
    decode_xy_of_match rfl 0xA#4 rfl, decode_xy_of_match rfl 0xB#4 rfl,
    decode_nn_of_match rfl 0xC#4 rfl, decode_nn_of_match rfl 0xD#4 rfl, decode_nn_of_match rfl 0xE#4 rfl,
    decode_nn_of_match rfl 0xF#4 rfl,
    decode_n_of_match rfl 0x00#8 rfl, decode_n_of_match rfl 0x01#8 rfl, decode_n_of_match rfl 0x02#8 rfl,
    decode_n_of_match rfl 0x03#8 rfl, decode_n_of_match rfl 0x04#8 rfl, decode_n_of_match rfl 0x05#8 rfl,
    decode_n_of_match rfl 0x06#8 rfl, decode_n_of_match rfl 0x07#8 rfl, decode_exr_of_match,
    decode_gm_of_match rfl 0x09#8 (by rw [encode, hsel]; rfl),
    decode_gm_of_match rfl 0x0A#8 (by rw [encode, hsel]; rfl),
    decode_gm_of_match rfl 0x0B#8 (by rw [encode, hsel]; rfl),
    decode_gm_of_match rfl 0x0C#8 (by rw [encode, hsel]; rfl),
    decode_n_of_match rfl 0x0D#8 rfl, decode_n_of_match rfl 0x0E#8 rfl, fun h => ?_⟩
  exact ⟨condOfCode g, decode_skip_of_match h, fun hg => by rw [hg]; rfl⟩

/-- Settles O3: each printed word is the encoding of the instruction printed beside it. -/
theorem wordsOfTheWorkedExamplesDecode : Obligations.WordsOfTheWorkedExamplesDecode := by
  refine ⟨?_, ?_, ?_, ?_, ?_, ?_, ?_, ?_, ?_, ?_, ?_, ?_, ?_⟩ <;> exact decode_of_encode rfl rfl

end Sys2Proof
end

section
/-!
PROOFS. What two parts of 30_encoding.md say of execution: the condition codes of SKIP (R90), and the substitutes for
instructions the set leaves out (R100).
-/
namespace Sys2Proof.Machine

/-! ## The condition codes of SKIP (R89, R90) -/

/-- The parameter SKIP_COND_MAP, read as the flag each code tests. -/
theorem condHolds_condOfCode (code : BitVec 2) (f : Flags) :
    condHolds (condOfCode code) f =
      if code = 0#2 then f.c else if code = 1#2 then !f.c else if code = 2#2 then f.z else !f.z := by
  have hcode : code = 0#2 ∨ code = 1#2 ∨ code = 2#2 ∨ code = 3#2 := by revert code; decide
  rcases hcode with rfl | rfl | rfl | rfl <;> rfl

/-- SKIP changes PC alone, on the ring of 4096 words. -/
theorem exec_skip (k : SkipCond) (count : Nat) (s : State) :
    exec (.skip k count) s =
      .next { s with
        pc := if condHolds k s.flags = true then BitVec.ofNat 12 ((s.pc.toNat + count) % 4096) else s.pc } := by
  have hpc : s.pc + BitVec.ofNat 12 count = BitVec.ofNat 12 ((s.pc.toNat + count) % 4096) :=
    BitVec.eq_of_toNat_eq (by simp)
  rw [exec, execSkip, hpc]
  split <;> rfl

/-- Settles O29: such a word decodes to SKIP with the condition of its code. -/
theorem skipConditionCodes : Obligations.SkipConditionCodes := by
  intro w s h code m cond count
  rw [decode_skip_of_match h, exec_skip, condHolds_condOfCode]
  rfl

/-! ## The substitutes (R100) -/

/-- Doubling is a shift, the old bit 3 leaving into C. -/
theorem aluAdd_self (a : Nibble) (f : Flags) :
    (aluAdd a a f).1 = a <<< 1 ∧ (aluAdd a a f).2.c = a.getLsbD 3 := by
  simp only [aluAdd]; revert a; decide

/-- Doubling with carry is a rotation through C. -/
theorem aluAdc_self (a : Nibble) (f : Flags) :
    (aluAdc a a f).1 = (a <<< 1) ||| (if f.c = true then 1#4 else 0#4) ∧ (aluAdc a a f).2.c = a.getLsbD 3 := by
  simp only [aluAdc]; generalize f.c = carry; revert a carry; decide

/-- R0 to R9 lie at no input cell. -/
theorem State.not_inputCell_regAddr (s : State) {r : Reg} (h : r.toNat < 10) : ¬ s.inputCell (regAddr r) :=
  s.not_inputCell_of (regAddr_ne (by simp; omega)) (regAddr_ne (by simp; omega))

/-- The two-register form on R0 to R9 with both operands the same register. -/
theorem execRR_self (alu : Nibble → Nibble → Flags → Nibble × Flags) {y : Reg} (hy : y.toNat < 10) (s : State) :
    ∃ t, execRR alu y y s = .next t ∧
      t.cell (regAddr y) = (alu (s.cell (regAddr y)) (s.cell (regAddr y)) s.flags).1 ∧
      t.flags = (alu (s.cell (regAddr y)) (s.cell (regAddr y)) s.flags).2 := by
  have hplain := s.not_inputCell_regAddr hy
  have h12 : y ≠ 12#4 := by rintro rfl; simp at hy
  have h13 : y ≠ 13#4 := by rintro rfl; simp at hy
  obtain ⟨t, hexec, hwrote, hflags, -, -⟩ := execRR_next s alu y h12 h13
  simp only [s.readReg_plain hplain] at hwrote hflags
  exact ⟨t, hexec, hwrote.stored hplain, hflags⟩

/-- A literal form whose result is R0 itself leaves every cell as before. -/
theorem execR0N_same {alu : Nibble → Nibble → Flags → Nibble × Flags} {n : Nibble} {s : State}
    (h : (alu (s.cell 0x00#8) n s.flags).1 = s.cell 0x00#8) :
    ∃ t, execR0N alu n s = .next t ∧ (∀ a, t.cell a = s.cell a) ∧ t.flags = (alu (s.cell 0x00#8) n s.flags).2 := by
  obtain ⟨t, hexec, hwrote, hflags, -, -⟩ := execR0N_next s alu n
  refine ⟨t, hexec, fun a => ?_, hflags⟩
  by_cases ha : a = 0x00#8
  · rw [ha, hwrote.stored (s.not_inputCell_of (by decide) (by decide)), h]
  · exact hwrote.kept a ha

/-- Settles O20: the doublings by `execRR_self`; the literals 0, 15 and 0 are neutral, so every cell keeps its content. -/
theorem substitutesForMissingInstructions : Obligations.SubstitutesForMissingInstructions := by
  intro y s
  refine ⟨fun hy => ⟨?_, ?_⟩, ?_, ?_, ?_⟩
  · obtain ⟨t, hexec, hcell, hflags⟩ := execRR_self aluAdd hy s
    obtain ⟨hresult, hcarry⟩ := aluAdd_self (s.cell (regAddr y)) s.flags
    exact ⟨t, hexec, hcell.trans hresult, by rw [hflags, hcarry]⟩
  · obtain ⟨t, hexec, hcell, hflags⟩ := execRR_self aluAdc hy s
    obtain ⟨hresult, hcarry⟩ := aluAdc_self (s.cell (regAddr y)) s.flags
    exact ⟨t, hexec, hcell.trans hresult, by rw [hflags, hcarry]⟩
  · obtain ⟨t, hexec, hcells, hflags⟩ := execR0N_same (alu := aluOrN) (n := 0#4) (s := s) BitVec.or_zero
    exact ⟨t, hexec, hcells, by rw [hflags]; rfl⟩
  · obtain ⟨t, hexec, hcells, hflags⟩ := execR0N_same (alu := aluAndN) (n := 15#4) (s := s) BitVec.and_allOnes
    exact ⟨t, hexec, hcells, by rw [hflags]; rfl⟩
  · obtain ⟨t, hexec, hcells, hflags⟩ := execR0N_same (alu := aluXorN) (n := 0#4) (s := s) BitVec.xor_zero
    exact ⟨t, hexec, hcells, by rw [hflags]; rfl⟩

end Sys2Proof.Machine
end

section
/-!
PROOFS. The two-register instructions of 40_alu_rr.md: what the 4-bit adder computes (R110), as an addition and, on the
complemented operand, as a subtraction; from it the results and flags of ADD, ADC, SUB, SBB (R111 to R114), the logic
forms (R115 to R117), and two consequences: one draw per read of IN (R118) and the 8-bit addition (R120).
-/
namespace Sys2Proof.Machine

/-! ## The adder as an addition (R110) -/

section
variable (a b : Nibble) (cin : Bool)

theorem addFlags_result : (addFlags a b cin).1 = BitVec.ofNat 4 (a.toNat + b.toNat + cin.toNat) := rfl

theorem addFlags_c_iff : (addFlags a b cin).2.c = true ↔ 15 < a.toNat + b.toNat + cin.toNat := decide_eq_true_iff

theorem addFlags_result_toNat : (addFlags a b cin).1.toNat = (a.toNat + b.toNat + cin.toNat) % 16 := by
  rw [addFlags_result, BitVec.toNat_ofNat]

/-- The sum is below 32, so the carry is its quotient by 16. -/
theorem addFlags_c_toNat : (addFlags a b cin).2.c.toNat = (a.toNat + b.toNat + cin.toNat) / 16 := by
  have ha := a.isLt
  have hb := b.isLt
  have hcin := cin.toNat_le
  have hc := addFlags_c_iff a b cin
  cases h : (addFlags a b cin).2.c with
  | true =>
    have hsum := hc.1 h
    rw [Bool.toNat_true]; omega
  | false =>
    have hsum := mt hc.2 (Bool.eq_false_iff.1 h)
    rw [Bool.toNat_false]; omega

theorem addFlags_z_iff : (addFlags a b cin).2.z = true ↔ (addFlags a b cin).1 = 0#4 := beq_iff_eq

/-- V tells exactly that the sum of the signed operands has no 4-bit representation. -/
theorem addFlags_v_iff : (addFlags a b cin).2.v = true ↔
    ¬ (-8 ≤ a.toInt + b.toInt + cin.toNat ∧ a.toInt + b.toInt + cin.toNat ≤ 7) := by
  have hv : (addFlags a b cin).2.v = (a.msb == b.msb && (addFlags a b cin).1.msb != a.msb) := rfl
  have ha := a.isLt
  have hb := b.isLt
  have hcin := cin.toNat_le
  simp only [hv, addFlags_result, BitVec.msb_eq_decide, BitVec.toInt_eq_toNat_cond, BitVec.toNat_ofNat,
    Bool.and_eq_true, beq_iff_eq, bne_iff_ne, decide_eq_decide, ne_eq]
  split <;> split <;> omega

/-! ## The adder as a subtraction: the operand complemented, the carry the inverse of the borrow (R113, R114) -/

theorem nibble_toNat_not : (~~~b).toNat = 15 - b.toNat := BitVec.toNat_not

theorem nibble_toInt_not : (~~~b).toInt = -b.toInt - 1 := by
  have hb := b.isLt
  simp only [BitVec.toInt_eq_toNat_cond, nibble_toNat_not]
  split <;> split <;> omega

theorem carry_eq_one_sub_borrow : cin.toNat = 1 - (!cin).toNat := by cases cin <;> rfl

theorem addFlags_not_result :
    (addFlags a (~~~b) cin).1 = BitVec.ofInt 4 ((a.toNat : Int) - b.toNat - (!cin).toNat) := by
  have hb := b.isLt
  have hborrow := (!cin).toNat_le
  refine BitVec.eq_of_toNat_eq ?_
  rw [addFlags_result, nibble_toNat_not, carry_eq_one_sub_borrow, BitVec.toNat_ofNat, BitVec.toNat_ofInt]
  omega

theorem addFlags_not_c_iff : (addFlags a (~~~b) cin).2.c = true ↔ b.toNat + (!cin).toNat ≤ a.toNat := by
  have hb := b.isLt
  have hborrow := (!cin).toNat_le
  rw [addFlags_c_iff, nibble_toNat_not, carry_eq_one_sub_borrow]
  omega

theorem addFlags_not_v_iff : (addFlags a (~~~b) cin).2.v = true ↔
    ¬ (-8 ≤ a.toInt - b.toInt - (!cin).toNat ∧ a.toInt - b.toInt - (!cin).toNat ≤ 7) := by
  have hborrow := (!cin).toNat_le
  rw [addFlags_v_iff, nibble_toInt_not, carry_eq_one_sub_borrow]
  omega

/-- The difference is 0 exactly for equal operands. -/
theorem nibble_ofInt_sub_eq_zero_iff : BitVec.ofInt 4 ((a.toNat : Int) - b.toNat) = 0#4 ↔ a = b := by
  have ha := a.isLt
  have hb := b.isLt
  rw [← BitVec.toNat_inj, ← BitVec.toNat_inj, BitVec.toNat_ofInt, BitVec.toNat_ofNat]
  omega

/-- The carry as the statements write it. -/
theorem ite_carry : (if cin = true then 1 else 0) = cin.toNat := by cases cin <;> rfl

/-- The borrow as the statements write it. -/
theorem ite_borrow : (if cin = true then 0 else 1) = (!cin).toNat := by cases cin <;> rfl

end

/-! ## The two-register form, with the flags as conditions -/

section
variable {alu : Nibble → Nibble → Flags → Nibble × Flags} {x y : Reg} {s : State}

/-- `execRR_next` for a computation whose result is `r` and which sets C, Z, V exactly where `C`, `Z`, `V` hold. -/
theorem execRR_answers {r : Nibble} {C Z V : Prop} (h12 : x ≠ 12#4) (h13 : x ≠ 13#4)
    (hr : (alu (s.readReg x).1 ((s.readReg x).2.readReg y).1 s.flags).1 = r)
    (hc : (alu (s.readReg x).1 ((s.readReg x).2.readReg y).1 s.flags).2.c = true ↔ C)
    (hz : (alu (s.readReg x).1 ((s.readReg x).2.readReg y).1 s.flags).2.z = true ↔ Z)
    (hv : (alu (s.readReg x).1 ((s.readReg x).2.readReg y).1 s.flags).2.v = true ↔ V) :
    ∃ t, execRR alu x y s = .next t ∧ WroteCell s (regAddr x) r t ∧ t.pc = s.pc ∧ t.sp = s.sp ∧
      (t.flags.c = true ↔ C) ∧ (t.flags.z = true ↔ Z) ∧ (t.flags.v = true ↔ V) := by
  obtain ⟨t, hexec, hwrote, hflags, hpc, hsp⟩ := execRR_next s alu y h12 h13
  rw [← hflags] at hc hz hv
  exact ⟨t, hexec, hr ▸ hwrote, hpc, hsp, hc, hz, hv⟩

/-- `execRR_next` for a computation of `r` that writes Z alone. -/
theorem execRR_answers_z {r : Nibble} (h12 : x ≠ 12#4) (h13 : x ≠ 13#4)
    (halu : alu (s.readReg x).1 ((s.readReg x).2.readReg y).1 s.flags = (r, { s.flags with z := r == 0#4 })) :
    ∃ t, execRR alu x y s = .next t ∧ WroteCell s (regAddr x) r t ∧ t.pc = s.pc ∧ t.sp = s.sp ∧
      t.flags.c = s.flags.c ∧ (t.flags.z = true ↔ r = 0#4) ∧ t.flags.v = s.flags.v := by
  obtain ⟨t, hexec, hwrote, hflags, hpc, hsp⟩ := execRR_next s alu y h12 h13
  rw [halu] at hwrote hflags
  exact ⟨t, hexec, hwrote, hpc, hsp, by rw [hflags], by rw [hflags]; exact beq_iff_eq, by rw [hflags]⟩

end

/-! ## ADD, ADC, SUB, SBB (R111 to R114) -/

/-- Settles O13: the adder without a carry. -/
theorem addRegistersResultFlagsFrame : Obligations.AddRegistersResultFlagsFrame := by
  intro x y s
  refine ⟨decode_encode (i := .addXY x y) rfl, fun h12 h13 => ?_⟩
  intro a b
  have hv := addFlags_v_iff a b false
  simp only [Bool.toNat_false, Nat.cast_zero, add_zero] at hv
  exact execRR_answers (alu := aluAdd) h12 h13 rfl (addFlags_c_iff a b false) (addFlags_z_iff a b false) hv

/-- Settles O14: the adder with the carry C. -/
theorem addWithCarryResultFlagsFrame : Obligations.AddWithCarryResultFlagsFrame := by
  intro x y s
  refine ⟨decode_encode (i := .adcXY x y) rfl, fun h12 h13 => ?_⟩
  intro a b carry
  have hcarry : carry = s.flags.c.toNat := ite_carry _
  rw [hcarry]
  exact execRR_answers (alu := aluAdc) h12 h13 rfl (addFlags_c_iff a b _) (addFlags_z_iff a b _)
    (addFlags_v_iff a b _)

/-- Settles O15: the adder on the complement of RY, with no borrow. -/
theorem subtractResultFlagsFrame : Obligations.SubtractResultFlagsFrame := by
  intro x y s
  refine ⟨decode_encode (i := .subXY x y) rfl, fun h12 h13 => ?_⟩
  intro a b
  have hr := addFlags_not_result a b true
  have hv := addFlags_not_v_iff a b true
  simp only [Bool.not_true, Bool.toNat_false, Nat.cast_zero, sub_zero] at hr hv
  have hz : (addFlags a (~~~b) true).2.z = true ↔ a = b := by
    rw [addFlags_z_iff, hr, nibble_ofInt_sub_eq_zero_iff]
  exact execRR_answers (alu := aluSub) h12 h13 hr (addFlags_not_c_iff a b true) hz hv

/-- Settles O16: the adder on the complement of RY, the borrow the inverse of C. -/
theorem subtractWithBorrowResultFlagsFrame : Obligations.SubtractWithBorrowResultFlagsFrame := by
  intro x y s
  refine ⟨decode_encode (i := .sbbXY x y) rfl, fun h12 h13 => ?_⟩
  intro a b borrow
  have hborrow : borrow = (!s.flags.c).toNat := ite_borrow _
  rw [hborrow]
  have hr := addFlags_not_result a b s.flags.c
  have hz := addFlags_z_iff a (~~~b) s.flags.c
  rw [hr] at hz
  exact execRR_answers (alu := aluSbb) h12 h13 hr (addFlags_not_c_iff a b _) hz (addFlags_not_v_iff a b _)

/-! ## OR, AND, XOR (R115 to R117) -/

/-- Settles O17: the bits given for `r` are those of the instruction's result. -/
theorem registerLogicResultFlagsFrame : Obligations.RegisterLogicResultFlagsFrame := by
  intro x y s i r
  refine ⟨decode_encode (i := .orXY x y) rfl, decode_encode (i := .andXY x y) rfl,
    decode_encode (i := .xorXY x y) rfl, fun h12 h13 => ?_⟩
  intro a b hi
  rcases hi with ⟨rfl, hbits⟩ | ⟨rfl, hbits⟩ | ⟨rfl, hbits⟩
  · have hr : r = a ||| b := BitVec.eq_of_getLsbD_eq fun k _ => by rw [hbits, BitVec.getLsbD_or]
    exact execRR_answers_z (alu := aluOr) h12 h13 (by rw [hr]; rfl)
  · have hr : r = a &&& b := BitVec.eq_of_getLsbD_eq fun k _ => by rw [hbits, BitVec.getLsbD_and]
    exact execRR_answers_z (alu := aluAnd) h12 h13 (by rw [hr]; rfl)
  · have hr : r = a ^^^ b := BitVec.eq_of_getLsbD_eq fun k _ => by rw [hbits, BitVec.getLsbD_xor]
    exact execRR_answers_z (alu := aluXor) h12 h13 (by rw [hr]; rfl)

/-! ## Each read of IN is its own draw (R118) -/

/-- With IOPOS = 0 two reads of R11 in a row give two successive draws. -/
theorem State.readReg_in_twice {s : State} (h : ¬ s.ioposSet) :
    (s.readReg 11#4).1 = Config.draw s.draws ∧
      ((s.readReg 11#4).2.readReg 11#4).1 = Config.draw (s.draws + 1) := by
  have hfirst : s.readReg 11#4 = (Config.draw s.draws, s.drawn) := s.memRead_input (.inr ⟨rfl, h⟩)
  have hsecond : s.drawn.readReg 11#4 = (Config.draw (s.draws + 1), s.drawn.drawn) :=
    s.drawn.memRead_input (.inr ⟨rfl, h⟩)
  exact ⟨by rw [hfirst], by rw [hfirst, hsecond]⟩

/-- Settles O18: `addRegistersResultFlagsFrame` on the two draws. -/
theorem eachReadOfInputIsItsOwnDraw : Obligations.EachReadOfInputIsItsOwnDraw := by
  intro s h
  obtain ⟨hfirst, hsecond⟩ := State.readReg_in_twice (Bool.eq_false_iff.1 h)
  obtain ⟨-, hadd⟩ := addRegistersResultFlagsFrame 11#4 11#4 s
  obtain ⟨t, hexec, -, -, -, hc, hz, -⟩ := hadd (by decide) (by decide)
  rw [hfirst, hsecond] at hc hz
  exact ⟨t, hexec, hc, by rw [hz, BitVec.ofNat_add, BitVec.ofNat_toNat, BitVec.ofNat_toNat]; rfl⟩

/-! ## The 8-bit addition (R120) -/

theorem nibble_append_toNat (high low : Nibble) : (high ++ low).toNat = 16 * high.toNat + low.toNat := by
  rw [BitVec.toNat_append, ← Nat.shiftLeft_add_eq_or_of_lt low.isLt, Nat.shiftLeft_eq, Nat.mul_comm]

/-- The carry out of the low nibbles, added to the high ones, gives the sum of the two bytes. -/
theorem aluAdd_aluAdc_byte (high high' low low' : Nibble) (f : Flags) :
    let lo := aluAdd low low' f
    let hi := aluAdc high high' lo.2
    hi.1 ++ lo.1 = (high ++ low) + (high' ++ low') ∧
      (hi.2.c = true ↔ 255 < (high ++ low).toNat + (high' ++ low').toNat) := by
  intro lo hi
  have hlo : lo.1.toNat = (low.toNat + low'.toNat) % 16 := addFlags_result_toNat low low' false
  have hmid : lo.2.c.toNat = (low.toNat + low'.toNat) / 16 := addFlags_c_toNat low low' false
  have hhi : hi.1.toNat = (high.toNat + high'.toNat + lo.2.c.toNat) % 16 := addFlags_result_toNat high high' lo.2.c
  have hc : hi.2.c = true ↔ 15 < high.toNat + high'.toNat + lo.2.c.toNat := addFlags_c_iff high high' lo.2.c
  rw [hmid] at hhi hc
  refine ⟨BitVec.eq_of_toNat_eq ?_, hc.trans ?_⟩
  · rw [BitVec.toNat_add, nibble_append_toNat, nibble_append_toNat, nibble_append_toNat, hlo, hhi]
    omega
  · rw [nibble_append_toNat, nibble_append_toNat]
    omega

theorem regAddr_injective {r q : Reg} (h : r ≠ q) : regAddr r ≠ regAddr q :=
  regAddr_ne fun e => h (BitVec.eq_of_toNat_eq (by rw [e, regAddr_toNat]))

/-- The two-register form on R0 to R9: the operands are the cells, and every other cell is kept. -/
theorem execRR_ordinary (alu : Nibble → Nibble → Flags → Nibble × Flags) {x y : Reg} (hx : x.toNat < 10)
    (hy : y.toNat < 10) (s : State) :
    ∃ t, execRR alu x y s = .next t ∧
      t.cell (regAddr x) = (alu (s.cell (regAddr x)) (s.cell (regAddr y)) s.flags).1 ∧
      (∀ r, r ≠ x → t.cell (regAddr r) = s.cell (regAddr r)) ∧
      t.flags = (alu (s.cell (regAddr x)) (s.cell (regAddr y)) s.flags).2 := by
  have hplain := s.not_inputCell_regAddr hx
  have h12 : x ≠ 12#4 := by rintro rfl; simp at hx
  have h13 : x ≠ 13#4 := by rintro rfl; simp at hx
  obtain ⟨t, hexec, hwrote, hflags, -, -⟩ := execRR_next s alu y h12 h13
  simp only [s.readReg_plain hplain, s.readReg_plain (s.not_inputCell_regAddr hy)] at hwrote hflags
  exact ⟨t, hexec, hwrote.stored hplain, fun r hr => hwrote.kept _ (regAddr_injective hr), hflags⟩

/-- Settles O19: the ADD leaves the operands of the ADC alone, the ADC the low sum, and `aluAdd_aluAdc_byte` adds up. -/
theorem addThenAdcAddsEightBits : Obligations.AddThenAdcAddsEightBits := by
  intro lo hi lo' hi' s hlo hhi hlo' hhi' hne hne'
  obtain ⟨t, hadd, hlow, hkept, hflags⟩ := execRR_ordinary aluAdd hlo hlo' s
  obtain ⟨u, hadc, hhigh, hkept', hflags'⟩ := execRR_ordinary aluAdc hhi hhi' t
  rw [hkept hi hne, hkept hi' hne', hflags] at hhigh hflags'
  obtain ⟨hsum, hcarry⟩ := aluAdd_aluAdc_byte (s.cell (regAddr hi)) (s.cell (regAddr hi')) (s.cell (regAddr lo))
    (s.cell (regAddr lo')) s.flags
  exact ⟨t, u, hadd, hadc, by rw [hhigh, hkept' lo hne.symm, hlow]; exact hsum, by rw [hflags']; exact hcarry⟩

end Sys2Proof.Machine
end

section
/-!
PROOFS. The seven MOV instructions of 41_mov.md (R130 to R137): a move answers from the state its operands' reads leave,
which differs from the state before in the count of draws alone, so each result is one write, jump or call of that state.
-/
namespace Sys2Proof.Machine

/-! ## The state after reads -/

/-- `u` is `s` after some reads: only the count of draws may differ (R55, R60). -/
structure AfterReads (s u : State) : Prop where
  cell : ∀ b, u.cell b = s.cell b
  prog : u.prog = s.prog
  pc : u.pc = s.pc
  sp : u.sp = s.sp
  flags : u.flags = s.flags

section
variable {s u : State}

theorem AfterReads.refl (s : State) : AfterReads s s := ⟨fun _ => rfl, rfl, rfl, rfl, rfl⟩

theorem AfterReads.memRead (h : AfterReads s u) (a : Addr) : AfterReads s (u.memRead a).2 where
  cell b := (u.memRead_cell a b).trans (h.cell b)
  prog := (u.memRead_prog a).trans h.prog
  pc := (u.memRead_pc a).trans h.pc
  sp := (u.memRead_sp a).trans h.sp
  flags := (u.memRead_flags a).trans h.flags

theorem AfterReads.readReg (h : AfterReads s u) (r : Reg) : AfterReads s (u.readReg r).2 := h.memRead (regAddr r)

theorem State.afterPair_afterReads (s : State) (x y : Reg) : AfterReads s (s.afterPair x y) :=
  ((AfterReads.refl s).readReg x).readReg y

/-! ## One write, jump or call after reads -/

/-- From `s` to `t` the value `v` was written to cell `a`, and the flags, PC and SP are as before. -/
def WroteCellOnly (s : State) (a : Addr) (v : Nibble) (t : State) : Prop :=
  WroteCell s a v t ∧ t.flags = s.flags ∧ t.pc = s.pc ∧ t.sp = s.sp

theorem AfterReads.memWrite (h : AfterReads s u) (a : Addr) (v : Nibble) : WroteCellOnly s a v (u.memWrite a v) :=
  ⟨(u.memWrite_wrote a v).congr_left h.cell h.prog, (u.memWrite_flags a v).trans h.flags,
    (u.memWrite_pc a v).trans h.pc, (u.memWrite_sp a v).trans h.sp⟩

theorem AfterReads.jumped (h : AfterReads s u) (v : Nibble) : Jumped s v ((u.writeReg 13#4 v).jump v) :=
  (u.jump_jumped v).congr h.cell h.prog h.sp (fun _ => rfl) rfl rfl rfl

theorem AfterReads.called (h : AfterReads s u) (v : Nibble) (hsp : ¬ stackDepth ≤ u.sp) :
    Called s v ((u.writeReg 12#4 v).call v) :=
  (u.call_called v hsp).congr h.cell h.prog h.sp h.pc

end

/-! ## MOV RX,RY and MOV RX,N (R131, R132) -/

/-- `r` is the answer of a move of `v` to RX from `s`, the jump and the call of R152 to R155 included. -/
structure MoveAnswer (s : State) (x : Reg) (v : Nibble) (r : Result) : Prop where
  plain : x ≠ 12#4 → x ≠ 13#4 → ∃ t, r = .next t ∧ WroteCellOnly s (regAddr x) v t
  jump : x = 13#4 → ∃ t, r = .next t ∧ Jumped s v t ∧ t.flags = s.flags
  call : x = 12#4 → s.sp.toNat < 5 → ∃ t, r = .next t ∧ Called s v t ∧ t.flags = s.flags
  full : x = 12#4 → 5 ≤ s.sp.toNat → r = .refused .stackOverflow

theorem AfterReads.writeTrigger {s u : State} (h : AfterReads s u) (x : Reg) (v : Nibble) :
    MoveAnswer s x v (u.writeTrigger x v) where
  plain h12 h13 := ⟨_, u.writeTrigger_plain v h12 h13, h.memWrite (regAddr x) v⟩
  jump hx := by
    subst hx
    have hexec := u.writeTrigger_jump v
    exact ⟨_, hexec, h.jumped v, (State.writeTrigger_flags hexec).trans h.flags⟩
  call hx hsp := by
    subst hx
    rw [← h.sp] at hsp
    have hroom : ¬ stackDepth ≤ u.sp := mt (stackDepth_le_iff u.sp).1 (Nat.not_le.2 hsp)
    have hexec := u.writeTrigger_call v hsp
    exact ⟨_, hexec, h.called v hroom, (State.writeTrigger_flags hexec).trans h.flags⟩
  full hx hsp := by
    subst hx
    rw [← h.sp] at hsp
    exact u.writeTrigger_full v hsp

theorem exec_movXY (x y : Reg) (s : State) :
    exec (.movXY x y) s = (s.readReg y).2.writeTrigger x (s.readReg y).1 := rfl

theorem exec_movXN (x : Reg) (n : Nibble) (s : State) : exec (.movXN x n) s = s.writeTrigger x n := rfl

/-- Settles O21: the trigger write after the read of RY. -/
theorem moveRegisterResultFrame : Obligations.MoveRegisterResultFrame := by
  intro x y s v
  have hmove : MoveAnswer s x v (exec (.movXY x y) s) := by
    rw [exec_movXY]
    exact ((AfterReads.refl s).readReg y).writeTrigger x v
  exact ⟨decode_encode (i := .movXY x y) rfl, hmove.plain, hmove.jump, hmove.call, hmove.full⟩

/-- Settles O22: the trigger write with no read before it. -/
theorem moveLiteralResultFrame : Obligations.MoveLiteralResultFrame := by
  intro x n s
  have hmove : MoveAnswer s x n (exec (.movXN x n) s) := by
    rw [exec_movXN]
    exact (AfterReads.refl s).writeTrigger x n
  exact ⟨decode_encode (i := .movXN x n) rfl, hmove.plain, hmove.jump, hmove.call, hmove.full⟩

/-! ## The explicit accesses, answered or refused (R57, R58, R62) -/

section
variable {s : State} {a : Addr} {e : Refusal}

theorem State.explicitWrite_next (v : Nibble) (h : explicitWriteRefusal a = none) :
    s.explicitWrite a v = .next (s.memWrite a v) := by rw [State.explicitWrite, h]

theorem State.explicitWrite_refused (v : Nibble) (h : explicitWriteRefusal a = some e) :
    s.explicitWrite a v = .refused e := by rw [State.explicitWrite, h]

theorem State.explicitRead_next (k : Nibble → State → Result) (h : explicitReadRefusal a = none) :
    s.explicitRead a k = k (s.memRead a).1 (s.memRead a).2 := by rw [State.explicitRead, h]

theorem State.explicitRead_refused (k : Nibble → State → Result) (h : explicitReadRefusal a = some e) :
    s.explicitRead a k = .refused e := by rw [State.explicitRead, h]

end

theorem explicitReadRefusal_wrflags : explicitReadRefusal 0xF3#8 = some .wrflagsRead := rfl

/-! ## MOV [XY],R0 and MOV [NN],R0 (R133, R135) -/

theorem exec_storeXY (x y : Reg) (s : State) :
    exec (.storeXY x y) s = (s.afterPair x y).explicitWrite (s.pairOperand x y) (s.cell 0x00#8) := by
  have hr0 : (s.afterPair x y).readReg r0 = (s.cell 0x00#8, s.afterPair x y) := by
    rw [r0, State.readReg_r0, (s.afterPair_afterReads x y).cell]
  change ((s.afterPair x y).readReg r0).2.explicitWrite (s.pairOperand x y) ((s.afterPair x y).readReg r0).1 = _
  rw [hr0]

theorem exec_storeNN (nn : Addr) (s : State) :
    exec (.storeNN nn) s = s.explicitWrite nn (s.cell 0x00#8) := by
  change (s.readReg r0).2.explicitWrite nn (s.readReg r0).1 = _
  rw [r0, State.readReg_r0]

/-- Settles O23: both stores write R0 after reads alone, and `explicitWriteRefusal` tells the three address ranges
apart. -/
theorem storeMovesResultFrame : Obligations.StoreMovesResultFrame := by
  intro x y nn a s i
  refine ⟨decode_encode (i := .storeXY x y) rfl, decode_encode (i := .storeNN nn) rfl, fun hi => ?_⟩
  have hstore : ∃ u, AfterReads s u ∧ exec i s = u.explicitWrite a (s.cell 0x00#8) := by
    rcases hi with ⟨rfl, rfl⟩ | ⟨rfl, rfl⟩
    · exact ⟨_, s.afterPair_afterReads x y, exec_storeXY x y s⟩
    · exact ⟨s, .refl s, exec_storeNN a s⟩
  obtain ⟨u, hreads, hexec⟩ := hstore
  rw [hexec]
  exact ⟨fun hdoc hC hD =>
      ⟨_, State.explicitWrite_next _ (explicitWriteRefusal_none hdoc hC hD), hreads.memWrite a _⟩,
    fun htrigger => State.explicitWrite_refused _ (explicitWriteRefusal_trigger htrigger),
    fun hundoc => State.explicitWrite_refused _ (explicitWriteRefusal_undocumented hundoc)⟩

/-! ## MOV R0,[XY] and MOV R0,[NN] (R134, R136) -/

/-- The last part of a load: the value read goes to R0. -/
def State.loadR0 (v : Nibble) (t : State) : Result := .next (t.writeReg r0 v)

theorem exec_loadXY (x y : Reg) (s : State) :
    exec (.loadXY x y) s = (s.afterPair x y).explicitRead (s.pairOperand x y) State.loadR0 := rfl

theorem exec_loadNN (nn : Addr) (s : State) : exec (.loadNN nn) s = s.explicitRead nn State.loadR0 := rfl

/-- Settles O24: both loads read the address after reads alone and write R0, and `explicitReadRefusal` tells the three
address ranges apart. -/
theorem loadMovesResultFrame : Obligations.LoadMovesResultFrame := by
  intro x y nn a s u i
  refine ⟨decode_encode (i := .loadXY x y) rfl, decode_encode (i := .loadNN nn) rfl, fun hi => ?_⟩
  have hload : AfterReads s u ∧ exec i s = u.explicitRead a State.loadR0 := by
    rcases hi with ⟨rfl, rfl, rfl⟩ | ⟨rfl, rfl, rfl⟩
    · exact ⟨s.afterPair_afterReads x y, exec_loadXY x y s⟩
    · exact ⟨.refl u, exec_loadNN a u⟩
  obtain ⟨hreads, hexec⟩ := hload
  rw [hexec]
  refine ⟨fun hdoc h3 => ?_, fun hF3 => ?_, fun hundoc => ?_⟩
  · exact ⟨_, State.explicitRead_next _ (explicitReadRefusal_none hdoc h3), (hreads.memRead a).memWrite _ _⟩
  · subst hF3
    exact State.explicitRead_refused _ explicitReadRefusal_wrflags
  · exact State.explicitRead_refused _ (explicitReadRefusal_undocumented hundoc)

/-! ## MOV PC,NN (R137) -/

theorem exec_movPC (nn : BitVec 8) (s : State) : exec (.movPC nn) s =
    .next ((s.writeReg 14#4 (nn.extractLsb' 0 4)).writeReg 15#4 (nn.extractLsb' 4 4)) := rfl

/-- Settles O25: a write of PCM and then one of PCH, both plain cells; no write moves PC. -/
theorem movePcLoadsPcmAndPch : Obligations.MovePcLoadsPcmAndPch := by
  intro nn s
  have hlow := s.writeReg_wrote 14#4 (nn.extractLsb' 0 4)
  have hhigh := (s.writeReg 14#4 (nn.extractLsb' 0 4)).writeReg_wrote 15#4 (nn.extractLsb' 4 4)
  refine ⟨decode_encode (i := .movPC nn) rfl, _, exec_movPC nn s, ?_, ?_, fun a hE hF => ?_, ?_, ?_, ?_, ?_⟩
  · exact (hhigh.kept 0x0E#8 (by decide)).trans (hlow.stored (s.not_inputCell_of (by decide) (by decide)))
  · exact hhigh.stored (State.not_inputCell_of _ (by decide) (by decide))
  · exact (hhigh.kept a hF).trans (hlow.kept a hE)
  · rw [State.writeReg_flags, State.writeReg_flags]
  · rw [State.writeReg_pc, State.writeReg_pc]
  · rw [State.writeReg_sp, State.writeReg_sp]
  · exact hhigh.image.trans hlow.image

end Sys2Proof.Machine
end

section
/-!
PROOFS. Jump, call and return of 42_jr_jump_call.md and 45_ret_skip.md: JR adds its signed literal on the ring of 4096
words (R151), and RET takes back the call of a write to R12 (R154, R211).
-/
namespace Sys2Proof.Machine

/-! ## JR NN (R151) -/

/-- The offset of JR is the signed literal, as an address of the ring. -/
theorem jrOffset_toNat (nn : BitVec 8) : ((jrOffset nn).toNat : Int) = nn.toInt % 4096 := by
  rw [jrOffset, BitVec.signExtend, BitVec.toNat_ofInt]
  exact Int.toNat_of_nonneg (Int.emod_nonneg _ (by decide))

theorem toNat_add_jrOffset (p : ProgAddr) (nn : BitVec 8) :
    ((p + jrOffset nn).toNat : Int) = ((p.toNat : Int) + nn.toInt) % 4096 :=
  calc ((p + jrOffset nn).toNat : Int)
      = ((p.toNat : Int) + (jrOffset nn).toNat) % 4096 := by rw [BitVec.toNat_add]; rfl
    _ = ((p.toNat : Int) + nn.toInt) % 4096 := by rw [jrOffset_toNat, Int.add_emod_emod]

/-- JR changes PC alone. -/
theorem exec_jr (nn : BitVec 8) (s : State) : exec (.jr nn) s = .next (s.setPc (s.pc + jrOffset nn)) := rfl

/-- Settles O26: PC is set, and nothing else of the state. -/
theorem jumpRelativeTargetFrame : Obligations.JumpRelativeTargetFrame := fun nn s =>
  ⟨decode_encode (i := .jr nn) rfl, _, exec_jr nn s, toNat_add_jrOffset s.pc nn, ⟨fun _ => rfl, rfl⟩, rfl, rfl⟩

/-! ## The call by a write of R12 (R154) -/

theorem State.writeTrigger_called {s t : State} {v : Nibble} (h : s.writeTrigger 12#4 v = .next t) : Called s v t := by
  rcases s.writeTrigger_cases h with ⟨h13, -⟩ | ⟨-, hroom, rfl⟩ | ⟨-, h12, -⟩
  · exact absurd h13 (by decide)
  · exact s.call_called v hroom
  · exact absurd rfl h12

/-- INC and DEC of R12 call after a read and a change of the flags. -/
theorem State.unary_writeTrigger_called {s t : State} {y : Reg} {f : Flags} {v : Nibble}
    (h : ((s.readReg y).2.setFlags f).writeTrigger 12#4 v = .next t) : Called s v t :=
  (State.writeTrigger_called h).congr (s.readReg_cell y) (s.readReg_prog y) (s.readReg_sp y) (s.readReg_pc y)

/-- Each of the four instructions with the trigger calls when it writes R12. -/
theorem exec_called {i : Instr} {y : Reg} {n : Nibble} {s t : State}
    (hi : i = .movXY 12#4 y ∨ i = .movXN 12#4 n ∨ i = .inc 12#4 ∨ i = .dec 12#4) (h : exec i s = .next t) :
    ∃ v, Called s v t := by
  have ht := exec_next h
  rcases hi with rfl | rfl | rfl | rfl
  · have hcall := State.writeTrigger_called ht
    exact ⟨_, hcall.congr (s.readReg_cell y) (s.readReg_prog y) (s.readReg_sp y) (s.readReg_pc y)⟩
  · exact ⟨_, State.writeTrigger_called ht⟩
  · exact ⟨_, State.unary_writeTrigger_called ht⟩
  · exact ⟨_, State.unary_writeTrigger_called ht⟩

/-! ## The entry a call leaves and RET pops (R32, R154, R211) -/

theorem State.stackEntry_congr {s t : State} {k : BitVec 3}
    (h : ∀ j, j < 3 → t.cell (entryCell k.toNat j) = s.cell (entryCell k.toNat j)) :
    t.stackEntry k = s.stackEntry k := by
  rw [State.stackEntry_eq, State.stackEntry_eq, h 0 (by decide), h 1 (by decide), h 2 (by decide)]

section
variable {s t : State} {v : Nibble}

/-- The entry's three nibbles make up the return address, as its three fields make up a word (`word_xy`). -/
theorem Called.stackEntry (h : Called s v t) : t.stackEntry s.sp = s.pc := by
  rw [State.stackEntry_eq, h.high, h.middle, h.low]
  exact word_xy s.pc

theorem Called.sp_ne_zero (h : Called s v t) : t.sp ≠ 0#3 := fun hzero => by
  have hlevel := h.level
  rw [hzero] at hlevel
  exact absurd hlevel.symm (Nat.succ_ne_zero _)

theorem Called.sp_sub_one (h : Called s v t) : t.sp - 1#3 = s.sp :=
  BitVec.eq_of_toNat_eq (by rw [sp_pred h.sp_ne_zero, h.level, Nat.add_sub_cancel])

end

/-! ## RET R0,N (R211) -/

theorem exec_ret (n : Nibble) {s : State} (h : s.sp ≠ 0#3) : exec (.ret n) s = .next (s.writeReg r0 n).pop := if_neg h

/-- The write of R0 does not reach the entry popped. -/
theorem State.writeReg_pop_pc (s : State) (r : Reg) (n : Nibble) :
    (s.writeReg r n).pop.pc = s.stackEntry (s.sp - 1#3) := by
  rw [State.pop_pc, State.writeReg_sp, State.stackEntry_writeReg]

/-- Settles O30: SP and the entry are those the call left, so RET pops the entry the call pushed. -/
theorem returnInvertsTheCall : Obligations.ReturnInvertsTheCall := by
  intro i y n k s t t' hi hexec hsp hentry
  obtain ⟨v, hcall⟩ := exec_called hi hexec
  have hne : t'.sp ≠ 0#3 := hsp ▸ hcall.sp_ne_zero
  have hpred : t'.sp - 1#3 = s.sp := hsp ▸ hcall.sp_sub_one
  refine ⟨_, exec_ret k hne, ?_, ?_, ?_, ?_⟩
  · rw [State.writeReg_pop_pc, hpred, State.stackEntry_congr hentry, hcall.stackEntry]
  · rw [State.pop_sp, State.writeReg_sp, hpred]
  · rw [State.pop_cell]
    exact (t'.writeReg_wrote r0 k).stored (t'.not_inputCell_of (by decide) (by decide))
  · rw [State.pop_flags, State.writeReg_flags]

end Sys2Proof.Machine
end

section
/-!
PROOFS. The instructions of 43_r0_literal_unary.md: the literal forms on R0 (R170 to R172, R176 to R178), INC and DEC as
a register write with the trigger under new flags (R173, R174), and DSZ, the one that moves PC (R175).
-/
namespace Sys2Proof.Machine

/-! ## CP R0,N (R171) -/

/-- CP changes C and Z alone, R0 being no input cell. -/
theorem exec_cpN (n : Nibble) (s : State) :
    exec (.cpN n) s = .next (s.setFlags (cpFlags (s.cell 0x00#8) n s.flags)) := by
  rw [exec, execCpN, r0, State.readReg_r0]

section
variable (a n : Nibble) (f : Flags)

theorem cpFlags_c_iff : (cpFlags a n f).c = true ↔ n.toNat ≤ a.toNat := addFlags_not_c_iff a n true

theorem cpFlags_z_iff : (cpFlags a n f).z = true ↔ a = n := by
  have hdiff := addFlags_not_result a n true
  simp only [Bool.not_true, Bool.toNat_false, Nat.cast_zero, sub_zero] at hdiff
  have hz : (cpFlags a n f).z = true ↔ (addFlags a (~~~n) true).1 = 0#4 := addFlags_z_iff a (~~~n) true
  rw [hz, hdiff, nibble_ofInt_sub_eq_zero_iff]

end

/-- Settles O31: C and Z are those of the subtraction, and nothing is written but flags. -/
theorem compareLiteralFlagsFrame : Obligations.CompareLiteralFlagsFrame := fun n s =>
  ⟨decode_encode (i := .cpN n) rfl, _, exec_cpN n s, ⟨fun _ => rfl, rfl⟩, rfl, rfl,
    cpFlags_c_iff (s.cell 0x00#8) n s.flags, cpFlags_z_iff (s.cell 0x00#8) n s.flags, rfl⟩

/-! ## ADD R0,N (R172) -/

theorem aluAddN_z_iff (a n : Nibble) (f : Flags) :
    (aluAddN a n f).2.z = true ↔ (a.toNat + n.toNat) % 16 = 0 := by
  have hz : (aluAddN a n f).2.z = true ↔ (addFlags a n false).1 = 0#4 := addFlags_z_iff a n false
  rw [hz, ← BitVec.toNat_inj, addFlags_result_toNat]
  rfl

/-- Settles O32: the adder without a carry, V kept. -/
theorem addLiteralResultFlagsFrame : Obligations.AddLiteralResultFlagsFrame := by
  intro n s
  obtain ⟨t, hexec, hwrote, hflags, hpc, hsp⟩ := execR0N_next s aluAddN n
  refine ⟨decode_encode (i := .addN n) rfl, t, hexec, hwrote, hpc, hsp, ?_, ?_, ?_⟩
  · rw [hflags]; exact addFlags_c_iff (s.cell 0x00#8) n false
  · rw [hflags]; exact aluAddN_z_iff (s.cell 0x00#8) n s.flags
  · rw [hflags, aluAddN_keeps_v]

/-! ## OR, AND, XOR R0,N (R176 to R178) -/

/-- `execR0N_next` for a computation of `r` that sets C to `c`, Z by the result, and keeps V. -/
theorem execR0N_answers_cz {alu : Nibble → Nibble → Flags → Nibble × Flags} {n r : Nibble} {c : Bool} {s : State}
    (halu : alu (s.cell 0x00#8) n s.flags = (r, { s.flags with c := c, z := r == 0#4 })) :
    ∃ t, execR0N alu n s = .next t ∧ WroteCell s 0x00#8 r t ∧ t.pc = s.pc ∧ t.sp = s.sp ∧
      t.flags.c = c ∧ (t.flags.z = true ↔ r = 0#4) ∧ t.flags.v = s.flags.v := by
  obtain ⟨t, hexec, hwrote, hflags, hpc, hsp⟩ := execR0N_next s alu n
  rw [halu] at hwrote hflags
  exact ⟨t, hexec, hwrote, hpc, hsp, by rw [hflags], by rw [hflags]; exact beq_iff_eq, by rw [hflags]⟩

/-- Settles O33: the bits given for `r` are those of the instruction's result. -/
theorem literalLogicResultFlagsFrame : Obligations.LiteralLogicResultFlagsFrame := by
  intro n s i r c
  refine ⟨decode_encode (i := .orN n) rfl, decode_encode (i := .andN n) rfl, decode_encode (i := .xorN n) rfl,
    fun hi => ?_⟩
  rcases hi with ⟨rfl, rfl, hbits⟩ | ⟨rfl, rfl, hbits⟩ | ⟨rfl, rfl, hbits⟩
  · have hr : r = s.cell 0x00#8 ||| n := BitVec.eq_of_getLsbD_eq fun k _ => by rw [hbits, BitVec.getLsbD_or]
    exact execR0N_answers_cz (alu := aluOrN) (by rw [hr]; rfl)
  · have hr : r = s.cell 0x00#8 &&& n := BitVec.eq_of_getLsbD_eq fun k _ => by rw [hbits, BitVec.getLsbD_and]
    exact execR0N_answers_cz (alu := aluAndN) (by rw [hr]; rfl)
  · have hr : r = s.cell 0x00#8 ^^^ n := BitVec.eq_of_getLsbD_eq fun k _ => by rw [hbits, BitVec.getLsbD_xor]
    exact execR0N_answers_cz (alu := aluXorN) (by rw [hr]; rfl)

/-! ## INC and DEC RY: a move of the result under the new flags (R173, R174) -/

section
variable {s u : State} {y : Reg} {v : Nibble} {f : Flags} {r : Result}

/-- `r` is the answer of INC or DEC of RY from `s` with result `v` and flags `f`. -/
structure UnaryAnswer (s : State) (y : Reg) (v : Nibble) (f : Flags) (r : Result) : Prop where
  plain : y ≠ 12#4 → y ≠ 13#4 → ∃ t, r = .next t ∧
    WroteCell s (regAddr y) v t ∧ t.flags = f ∧ t.pc = s.pc ∧ t.sp = s.sp
  jump : y = 13#4 → ∃ t, r = .next t ∧ Jumped s v t ∧ t.flags = f
  call : y = 12#4 → s.sp.toNat < 5 → ∃ t, r = .next t ∧ Called s v t ∧ t.flags = f
  full : y = 12#4 → 5 ≤ s.sp.toNat → r = .refused .stackOverflow

/-- The flags are set before the write, so the answer is that of a move from the state that holds them. -/
theorem MoveAnswer.unary (h : MoveAnswer (s.setFlags f) y v r) : UnaryAnswer s y v f r where
  plain h12 h13 := by
    obtain ⟨t, hr, hwrote, hsame⟩ := h.plain h12 h13
    exact ⟨t, hr, hwrote.congr_left (fun _ => rfl) rfl, hsame⟩
  jump h13 := by
    obtain ⟨t, hr, hjumped, hflags⟩ := h.jump h13
    exact ⟨t, hr, hjumped.congr (fun _ => rfl) rfl rfl (fun _ => rfl) rfl rfl rfl, hflags⟩
  call h12 hroom := by
    obtain ⟨t, hr, hcalled, hflags⟩ := h.call h12 hroom
    exact ⟨t, hr, hcalled.congr (fun _ => rfl) rfl rfl rfl, hflags⟩
  full := h.full

theorem AfterReads.setFlags (h : AfterReads s u) (f : Flags) : AfterReads (s.setFlags f) (u.setFlags f) :=
  ⟨h.cell, h.prog, h.pc, h.sp, rfl⟩

theorem execUnaryTrigger_answers {alu : Nibble → Flags → Nibble × Flags}
    (halu : alu (s.readReg y).1 s.flags = (v, f)) : UnaryAnswer s y v f (execUnaryTrigger alu y s) := by
  rw [execUnaryTrigger, halu]
  exact ((((AfterReads.refl s).readReg y).setFlags f).writeTrigger y v).unary

end

theorem nibble_add_one (a : Nibble) : a + 1#4 = BitVec.ofNat 4 (a.toNat + 1) :=
  BitVec.eq_of_toNat_eq (by rw [BitVec.toNat_add, BitVec.toNat_ofNat]; rfl)

theorem nibble_sub_one (a : Nibble) : a - 1#4 = BitVec.ofNat 4 (a.toNat + 15) :=
  BitVec.eq_of_toNat_eq (by rw [BitVec.toNat_sub, BitVec.toNat_ofNat, Nat.add_comm]; rfl)

/-- INC with its result and flags as the statement writes them. -/
theorem aluInc_eq (a : Nibble) (f : Flags) :
    let r : Nibble := BitVec.ofNat 4 (a.toNat + 1)
    aluInc a f = (r, { c := decide (r = 0#4), z := decide (r = 0#4), v := f.v }) := by
  rw [aluInc, nibble_add_one]
  rfl

/-- DEC with its result and flags as the statement writes them. -/
theorem aluDec_eq (a : Nibble) (f : Flags) :
    let r : Nibble := BitVec.ofNat 4 (a.toNat + 15)
    aluDec a f = (r, { c := decide (r ≠ 15#4), z := decide (r = 0#4), v := f.v }) := by
  intro r
  have hc : (r != 15#4) = decide (r ≠ 15#4) := (decide_not (p := r = 15#4)).symm
  rw [aluDec, nibble_sub_one, ← hc]
  rfl

/-- Settles O34: the trigger write of the increment, under its flags. -/
theorem incrementResultFlagsFrame : Obligations.IncrementResultFlagsFrame := by
  intro y s r f
  have hinc : UnaryAnswer s y r f (exec (.inc y) s) :=
    execUnaryTrigger_answers (alu := aluInc) (aluInc_eq (s.readReg y).1 s.flags)
  exact ⟨decode_encode (i := .inc y) rfl, hinc.plain, hinc.jump, hinc.call, hinc.full⟩

/-- Settles O35: the trigger write of the decrement, under its flags. -/
theorem decrementResultFlagsFrame : Obligations.DecrementResultFlagsFrame := by
  intro y s r f
  have hdec : UnaryAnswer s y r f (exec (.dec y) s) :=
    execUnaryTrigger_answers (alu := aluDec) (aluDec_eq (s.readReg y).1 s.flags)
  exact ⟨decode_encode (i := .dec y) rfl, hdec.plain, hdec.jump, hdec.call, hdec.full⟩

/-! ## DSZ RY (R175) -/

theorem exec_dsz_refused {y : Reg} (s : State) (h : y = 12#4 ∨ y = 13#4) :
    exec (.dsz y) s = .refused .triggerOther :=
  if_pos ((isTriggerReg_iff y).2 h)

/-- The skip is an increment of PC, as the fetch's is. -/
theorem exec_dsz_next {y : Reg} (s : State) (h12 : y ≠ 12#4) (h13 : y ≠ 13#4) :
    let t := (s.readReg y).2.writeReg y ((s.readReg y).1 - 1#4)
    exec (.dsz y) s = .next (if (s.readReg y).1 - 1#4 = 0#4 then t.advance else t) :=
  if_neg (by rw [isTriggerReg_false h12 h13]; exact Bool.false_ne_true)

theorem nibble_sub_one_eq_zero_iff (a : Nibble) : a - 1#4 = 0#4 ↔ a.toNat = 1 := by
  rw [BitVec.sub_eq_iff_eq_add, BitVec.zero_add, ← BitVec.toNat_inj]
  rfl

/-- Settles O36: one write after the read of RY, and for the result 0 the PC of `State.advance` on top of it. -/
theorem decrementAndSkipResultFrame : Obligations.DecrementAndSkipResultFrame := by
  intro y s a
  refine ⟨decode_encode (i := .dsz y) rfl, exec_dsz_refused s, fun h12 h13 => ?_⟩
  have hnext := exec_dsz_next s h12 h13
  obtain ⟨hwrote, hflags, hpc, hsp⟩ := ((AfterReads.refl s).readReg y).memWrite (regAddr y) (a - 1#4)
  rw [← nibble_sub_one]
  refine ⟨_, hnext, ?_⟩
  by_cases ha : a.toNat = 1
  · rw [if_pos ((nibble_sub_one_eq_zero_iff a).2 ha), if_pos ha]
    refine ⟨hwrote.congr_right (fun _ => rfl) rfl, hflags, hsp, ?_⟩
    rw [State.advance_eq, State.writeReg_pc, State.readReg_pc]
  · rw [if_neg (mt (nibble_sub_one_eq_zero_iff a).1 ha), if_neg ha]
    exact ⟨hwrote, hflags, hsp, hpc⟩

end Sys2Proof.Machine
end

section
/-!
PROOFS. The instructions of 44_exr_bit_rrc.md: the exchange of pairs as an induction over the pairs, each of which meets
no other (R191), the bit instructions by what a mask does to each bit (R192 to R196), and RRC as a rotation of the 5-bit
word C : RY (R197).
-/
namespace Sys2Proof.Machine

/-! ## The cells of the pairs -/

theorem mem_pairCells {n : Nat} {a : Addr} :
    a ∈ pairCells n ↔ ∃ k < n, a = BitVec.ofNat 8 k ∨ a = BitVec.ofNat 8 (0xE0 + k) := by
  simp only [pairCells, List.mem_append, List.mem_map, List.mem_range, eq_comm (b := a), ← exists_or, and_or_left]

section
variable {k n : Nat}

/-- A pair is none of those before it. -/
theorem pair_notMem_pairCells (hnk : n ≤ k) (hk : k < 12) :
    BitVec.ofNat 8 k ∉ pairCells n ∧ BitVec.ofNat 8 (0xE0 + k) ∉ pairCells n :=
  ⟨mt (pairCells_range (by omega)) (by rw [BitVec.toNat_ofNat]; omega),
    mt (pairCells_range (by omega)) (by rw [BitVec.toNat_ofNat]; omega)⟩

theorem pair_notMem_pair (hkn : k < n) (hn : n < 12) :
    BitVec.ofNat 8 k ∉ [BitVec.ofNat 8 n, BitVec.ofNat 8 (0xE0 + n)] ∧
      BitVec.ofNat 8 (0xE0 + k) ∉ [BitVec.ofNat 8 n, BitVec.ofNat 8 (0xE0 + n)] := by
  simp only [List.mem_cons, List.not_mem_nil, or_false]
  constructor <;> bv_omega

/-- The alternate cells are no ports (R34, R60). -/
theorem State.partner_plain (s : State) (hk : k < 12) : ¬ s.inputCell (BitVec.ofNat 8 (0xE0 + k)) :=
  s.not_inputCell_of (by bv_omega) (by bv_omega)

/-- Of the registers of the pairs only R11 can be the IN location. -/
theorem State.pairRegister_plain {s : State} (hk : k < 12) (hport : k = 11 → s.ioposSet) :
    ¬ s.inputCell (BitVec.ofNat 8 k) := by
  rintro (h | ⟨h, hclear⟩)
  · bv_omega
  · exact hclear (hport (by bv_omega))

/-! ## The exchange of one pair (R191) -/

section
variable (s : State)

/-- The exchange of one pair, its alternate cell read as the plain cell it is. -/
theorem exchangePair_eq (hk : k < 12) :
    exchangePair s k =
      ((s.memRead (BitVec.ofNat 8 k)).2.memWrite (BitVec.ofNat 8 k) (s.cell (BitVec.ofNat 8 (0xE0 + k)))).memWrite
        (BitVec.ofNat 8 (0xE0 + k)) (s.memRead (BitVec.ofNat 8 k)).1 := by
  have hpartner : 0xE0#8 + BitVec.ofNat 8 k = BitVec.ofNat 8 (0xE0 + k) := (BitVec.ofNat_add 0xE0 k).symm
  simp only [exchangePair, hpartner, State.memRead_plain _ (State.partner_plain _ hk), State.memRead_cell]

/-- The alternate cell gets what reading the register gives, a draw if that is the IN location (R60). -/
theorem exchangePair_partner (hk : k < 12) :
    (exchangePair s k).cell (BitVec.ofNat 8 (0xE0 + k)) = (s.memRead (BitVec.ofNat 8 k)).1 := by
  rw [exchangePair_eq s hk, State.memWrite_cell_same _ _ (State.partner_plain _ hk)]

theorem exchangePair_register (hk : k < 12) (hplain : ¬ s.inputCell (BitVec.ofNat 8 k)) :
    (exchangePair s k).cell (BitVec.ofNat 8 k) = s.cell (BitVec.ofNat 8 (0xE0 + k)) := by
  have hne : BitVec.ofNat 8 k ≠ BitVec.ofNat 8 (0xE0 + k) := by bv_omega
  rw [exchangePair_eq s hk, State.memWrite_cell_other _ _ hne, s.memRead_plain hplain, s.memWrite_cell_same _ hplain]

/-- A write of a plain cell draws nothing. -/
theorem State.memWrite_draws {a : Addr} (v : Nibble) (h : ¬ s.inputCell a) : (s.memWrite a v).draws = s.draws := by
  rw [State.memWrite, (s.isInput_false_iff a).2 h, if_neg Bool.false_ne_true]
  split <;> rfl

theorem exchangePair_draws (hk : k < 12) (hplain : ¬ s.inputCell (BitVec.ofNat 8 k)) :
    (exchangePair s k).draws = s.draws := by
  rw [exchangePair_eq s hk, State.memWrite_draws _ _ (State.partner_plain _ hk), s.memRead_plain hplain,
    s.memWrite_draws _ hplain]

/-! ## EXR N: the pairs one after the other (R191) -/

/-- A pair is untouched by the exchanges before its own. -/
theorem exchangePairs_later (hnk : n ≤ k) (hk : k < 12) :
    (exchangePairs s n).cell (BitVec.ofNat 8 k) = s.cell (BitVec.ofNat 8 k) ∧
      (exchangePairs s n).cell (BitVec.ofNat 8 (0xE0 + k)) = s.cell (BitVec.ofNat 8 (0xE0 + k)) := by
  have hwrote := exchangePairs_wroteOnly s (n := n) (by omega)
  exact (pair_notMem_pairCells hnk hk).imp (hwrote.kept _) (hwrote.kept _)

/-- A pair is untouched by an exchange after its own. -/
theorem exchangePair_earlier (hkn : k < n) (hn : n < 12) :
    (exchangePair s n).cell (BitVec.ofNat 8 k) = s.cell (BitVec.ofNat 8 k) ∧
      (exchangePair s n).cell (BitVec.ofNat 8 (0xE0 + k)) = s.cell (BitVec.ofNat 8 (0xE0 + k)) := by
  have hwrote := exchangePair_wroteOnly s hn
  exact (pair_notMem_pair hkn hn).imp (hwrote.kept _) (hwrote.kept _)

theorem exchangePairs_ioposSet (hn : n ≤ 12) : (exchangePairs s n).ioposSet ↔ s.ioposSet := by
  have hF3 : 0xF3#8 ∉ pairCells n := mt (pairCells_range hn) (by simp; omega)
  rw [State.ioposSet, (exchangePairs_wroteOnly s hn).kept _ hF3]

/-- Each pair of the range has changed places: its own exchange does it, the ones before and after leave it alone. -/
theorem exchangePairs_swapped (hn : n ≤ 12) (hk : k < n) (hport : k = 11 → s.ioposSet) :
    (exchangePairs s n).cell (BitVec.ofNat 8 k) = s.cell (BitVec.ofNat 8 (0xE0 + k)) ∧
      (exchangePairs s n).cell (BitVec.ofNat 8 (0xE0 + k)) = s.cell (BitVec.ofNat 8 k) := by
  induction n with
  | zero => omega
  | succ n ih =>
    rw [exchangePairs]
    rcases Nat.lt_succ_iff_lt_or_eq.1 hk with hlt | rfl
    · obtain ⟨hregister, hpartner⟩ := exchangePair_earlier (exchangePairs s n) hlt (by omega)
      rw [hregister, hpartner]
      exact ih (by omega) hlt
    · have hplain : ¬ (exchangePairs s k).inputCell (BitVec.ofNat 8 k) :=
        State.pairRegister_plain (by omega) fun e => (exchangePairs_ioposSet s (by omega)).2 (hport e)
      obtain ⟨hregister, hpartner⟩ := exchangePairs_later s (Nat.le_refl k) (by omega)
      rw [exchangePair_register _ (by omega) hplain, exchangePair_partner _ (by omega), State.memRead_plain _ hplain]
      exact ⟨hpartner, hregister⟩

theorem exchangePairs_draws (hn : n ≤ 11) : (exchangePairs s n).draws = s.draws := by
  induction n with
  | zero => rfl
  | succ n ih =>
    rw [exchangePairs, exchangePair_draws _ (by omega) (State.pairRegister_plain (by omega) (by omega)), ih (by omega)]

/-- With the IN location at 0x0B the twelfth pair's alternate cell gets the first draw (R60). -/
theorem exchangePairs_in (h : ¬ s.ioposSet) : (exchangePairs s 12).cell 0xEB#8 = Config.draw s.draws := by
  have hin : (exchangePairs s 11).inputCell 0x0B#8 := .inr ⟨rfl, mt (exchangePairs_ioposSet s (by omega)).1 h⟩
  have hpartner := exchangePair_partner (exchangePairs s 11) (k := 11) (by omega)
  rwa [State.memRead_input _ hin, exchangePairs_draws s (Nat.le_refl 11)] at hpartner

theorem exec_exr_refused (h : 13 ≤ n) : exec (.exr n) s = .refused .triggerOther := if_pos h

theorem exec_exr_next (h : n ≤ 12) : exec (.exr n) s = .next (exchangePairs s n) := if_neg (by omega)

end

end

/-- Settles O37: the pairs by `exchangePairs_swapped`, the frame by `exchangePairs_wroteOnly`. -/
theorem exchangeSwapsThePairs : Obligations.ExchangeSwapsThePairs := by
  intro n s
  refine ⟨exec_exr_refused s, fun hn => ⟨exchangePairs s n, exec_exr_next s hn, fun k => exchangePairs_swapped s hn,
    ?_, fun a ha => ?_, ?_⟩⟩
  · rintro rfl hclear
    exact exchangePairs_in s hclear
  · refine (exchangePairs_wroteOnly s hn).kept a fun hmem => ?_
    obtain ⟨k, hk, hpair⟩ := mem_pairCells.1 hmem
    exact not_or.2 (ha k hk) hpair
  · obtain ⟨hprog, hpc, hsp, hflags⟩ := exchangePairs_same s n
    exact ⟨hflags, hpc, hsp, hprog⟩

/-- With no IN location in the range, two exchanges leave every cell as it was: a pair changes places twice. -/
theorem exchangePairs_twice_cell (s : State) {n : Nat} (hn : n ≤ 12) (hport : 11 ≤ n → s.ioposSet) (a : Addr) :
    (exchangePairs (exchangePairs s n) n).cell a = s.cell a := by
  by_cases ha : a ∈ pairCells n
  · obtain ⟨k, hk, hpair⟩ := mem_pairCells.1 ha
    have hiopos : k = 11 → s.ioposSet := fun e => hport (by omega)
    obtain ⟨hregister, hpartner⟩ := exchangePairs_swapped s hn hk hiopos
    obtain ⟨hregister', hpartner'⟩ := exchangePairs_swapped (exchangePairs s n) hn hk fun e =>
      (exchangePairs_ioposSet s hn).2 (hiopos e)
    rcases hpair with rfl | rfl
    · rw [hregister', hpartner]
    · rw [hpartner', hregister]
  · rw [(exchangePairs_wroteOnly _ hn).kept a ha, (exchangePairs_wroteOnly s hn).kept a ha]

/-- With no OUT location in the range nothing is emitted. -/
theorem exchangePairs_out (s : State) {n : Nat} (hn : n ≤ 12) (hport : 11 ≤ n → s.ioposSet) :
    (exchangePairs s n).out = s.out := by
  have ho : s.outAddr ∉ pairCells n := fun hmem => by
    have hrange := pairCells_range hn hmem
    rcases (s.outAddr_iff _).1 rfl with ⟨hFA, -⟩ | ⟨hA, hclear⟩
    · rw [hFA, BitVec.toNat_ofNat] at hrange
      omega
    · rw [hA, BitVec.toNat_ofNat] at hrange
      exact hclear (hport (by omega))
  rw [(exchangePairs_wroteOnly s hn).emitted, if_neg ho, List.append_nil]

/-- Settles O38: the cells by `exchangePairs_twice_cell`, the rest kept by each of the two exchanges. -/
theorem exchangeTwiceRestores : Obligations.ExchangeTwiceRestores := by
  intro n s hn hport
  have hport' : 11 ≤ n → (exchangePairs s n).ioposSet := fun h => (exchangePairs_ioposSet s hn).2 (hport h)
  refine ⟨_, _, exec_exr_next s hn, exec_exr_next _ hn, exchangePairs_twice_cell s hn hport,
    by simp, by simp, by simp, ?_⟩
  rw [exchangePairs_out _ hn hport', exchangePairs_out s hn hport]

/-! ## BIT RG,M (R193) -/

/-- The IN location reads as a draw in either placement (R60). -/
theorem State.memRead_inAddr (s : State) : s.memRead s.inAddr = (Config.draw s.draws, s.drawn) :=
  s.memRead_input ((s.isInput_iff _).1 (by simp [State.isInput]))

/-- BIT of the value `v` read changes Z alone. -/
theorem exec_bit_answers {g : BitSel} (m : BitVec 2) {v : Nibble} {s : State}
    (hv : (s.memRead (s.bitCellRead g)).1 = v) :
    ∃ t, exec (.bit g m) s = .next t ∧ WroteNothing s t ∧ t.pc = s.pc ∧ t.sp = s.sp ∧
      t.flags.c = s.flags.c ∧ t.flags.v = s.flags.v ∧ (t.flags.z = true ↔ v.getLsbD m.toNat = false) := by
  have hread := (AfterReads.refl s).memRead (s.bitCellRead g)
  subst hv
  exact ⟨_, rfl, ⟨hread.cell, hread.prog⟩, hread.pc, hread.sp, rfl, rfl, iff_of_eq (Bool.not_eq_true' _)⟩

/-- Settles O39: R0, R1, R2 are plain cells, the IN location is a draw. -/
theorem bitTestSetsZOnly : Obligations.BitTestSetsZOnly := by
  intro g m s v
  refine exec_bit_answers m ?_
  have hplain {a : Addr} (hFB : a ≠ 0xFB#8) (hB : a ≠ 0x0B#8) : (s.memRead a).1 = s.cell a :=
    congrArg Prod.fst (s.memRead_plain (s.not_inputCell_of hFB hB))
  cases g with
  | r0 => exact hplain (a := 0x00#8) (by decide) (by decide)
  | r1 => exact hplain (a := 0x01#8) (by decide) (by decide)
  | r2 => exact hplain (a := 0x02#8) (by decide) (by decide)
  | rs => exact congrArg Prod.fst s.memRead_inAddr

/-! ## BSET, BCLR, BTG RG,M (R194 to R196) -/

section
variable (v : Nibble) (m : BitVec 2) {k : Nat}

theorem getLsbD_bitMask (k : Nat) : (bitMask m).getLsbD k = decide (k = m.toNat) := by
  rw [bitMask, ← BitVec.twoPow_eq, BitVec.getLsbD_twoPow, decide_eq_true (by omega), Bool.true_and]
  exact decide_eq_decide.2 eq_comm

theorem getLsbD_or_bitMask (k : Nat) :
    (v ||| bitMask m).getLsbD k = if k = m.toNat then true else v.getLsbD k := by
  rw [BitVec.getLsbD_or, getLsbD_bitMask]; split <;> simp [*]

theorem getLsbD_and_not_bitMask (hk : k < 4) :
    (v &&& ~~~bitMask m).getLsbD k = if k = m.toNat then false else v.getLsbD k := by
  rw [BitVec.getLsbD_and, BitVec.getLsbD_not, getLsbD_bitMask]; split <;> simp [*]

theorem getLsbD_xor_bitMask (k : Nat) :
    (v ^^^ bitMask m).getLsbD k = if k = m.toNat then !v.getLsbD m.toNat else v.getLsbD k := by
  rw [BitVec.getLsbD_xor, getLsbD_bitMask]; split <;> simp [*]

end

/-- The read-modify-write of one bit: the cell is no input cell, so it keeps the value written. -/
theorem execBitWrite_answers {f : Nibble → Nibble → Nibble} {g : BitSel} {m : BitVec 2} {s : State} {a : Addr}
    {b : Bool} (ha : s.bitCellWrite g = a)
    (hf : ∀ k, k < 4 → (f (s.cell a) (bitMask m)).getLsbD k = if k = m.toNat then b else (s.cell a).getLsbD k) :
    ∃ t, execBitWrite f g m s = .next t ∧
      (∀ k, k < 4 → (t.cell a).getLsbD k = if k = m.toNat then b else (s.cell a).getLsbD k) ∧
      (∀ c, c ≠ a → t.cell c = s.cell c) ∧ t.flags = s.flags ∧ t.pc = s.pc ∧ t.sp = s.sp ∧ t.prog = s.prog := by
  have hplain := s.bitCellWrite_plain g
  have hnext := execBitWrite_eq f g m s
  rw [ha] at hplain hnext
  obtain ⟨hwrote, hflags, hpc, hsp⟩ := (AfterReads.refl s).memWrite a (f (s.cell a) (bitMask m))
  exact ⟨_, hnext, by rwa [hwrote.stored hplain], hwrote.kept, hflags, hpc, hsp, hwrote.image⟩

/-- Settles O40: each instruction's mask operation, at the cell that RG names. -/
theorem bitWritesChangeOneBit : Obligations.BitWritesChangeOneBit := by
  intro g m s i b a h
  have ha : s.bitCellWrite g = a := by
    cases g with
    | r0 | r1 | r2 => rfl
    | rs => exact s.outAddr_eq
  rcases h with ⟨rfl, rfl⟩ | ⟨rfl, rfl⟩ | ⟨rfl, rfl⟩
  · exact execBitWrite_answers ha fun k _ => getLsbD_or_bitMask (s.cell a) m k
  · exact execBitWrite_answers (f := fun v b => v &&& ~~~b) ha fun k => getLsbD_and_not_bitMask (s.cell a) m
  · exact execBitWrite_answers ha fun k _ => getLsbD_xor_bitMask (s.cell a) m k

/-! ## RRC RY (R197) -/

theorem exec_rrc_refused {y : Reg} (s : State) (h : y = 12#4 ∨ y = 13#4) :
    exec (.rrc y) s = .refused .triggerOther :=
  if_pos ((isTriggerReg_iff y).2 h)

theorem exec_rrc_eq {y : Reg} (s : State) (h12 : y ≠ 12#4) (h13 : y ≠ 13#4) :
    exec (.rrc y) s =
      .next (((s.readReg y).2.writeReg y (aluRrc (s.readReg y).1 s.flags).1).setFlags
        (aluRrc (s.readReg y).1 s.flags).2) :=
  if_neg (by rw [isTriggerReg_false h12 h13]; exact Bool.false_ne_true)

/-- RRC is one write after the read of RY, and the flags of the rotation. -/
theorem exec_rrc_next {y : Reg} (s : State) (h12 : y ≠ 12#4) (h13 : y ≠ 13#4) :
    ∃ t, exec (.rrc y) s = .next t ∧ WroteCell s (regAddr y) (aluRrc (s.readReg y).1 s.flags).1 t ∧
      t.pc = s.pc ∧ t.sp = s.sp ∧ t.flags = (aluRrc (s.readReg y).1 s.flags).2 := by
  have hread := (AfterReads.refl s).readReg y
  obtain ⟨hwrote, -, hpc, hsp⟩ := hread.memWrite (regAddr y) (aluRrc (s.readReg y).1 s.flags).1
  exact ⟨_, exec_rrc_eq s h12 h13, hwrote.congr_right (fun _ => rfl) rfl, hpc, hsp, rfl⟩

/-- The bits of the rotation: the old C on top, the old bits 3 to 1 below it. -/
theorem aluRrc_bits (v : Nibble) (f : Flags) :
    (aluRrc v f).1.getLsbD 3 = f.c ∧ (aluRrc v f).1.getLsbD 2 = v.getLsbD 3 ∧
      (aluRrc v f).1.getLsbD 1 = v.getLsbD 2 ∧ (aluRrc v f).1.getLsbD 0 = v.getLsbD 1 := by
  have hbit (k : Nat) : (aluRrc v f).1.getLsbD k =
      if k < 3 then (v.extractLsb' 1 3).getLsbD k else (BitVec.ofBool f.c).getLsbD (k - 3) := BitVec.getLsbD_append
  rw [hbit, hbit, hbit, hbit]
  simp

/-- Settles O41: `exec_rrc_next` with the bits of the rotation. -/
theorem rotateRightThroughCarry : Obligations.RotateRightThroughCarry := by
  intro y s v
  refine ⟨decode_encode (i := .rrc y) rfl, exec_rrc_refused s, fun h12 h13 => ?_⟩
  obtain ⟨t, hexec, hwrote, hpc, hsp, hflags⟩ := exec_rrc_next s h12 h13
  obtain ⟨h3, h2, h1, h0⟩ := aluRrc_bits v s.flags
  exact ⟨t, _, hexec, h3, h2, h1, h0, hwrote, hpc, hsp, by rw [hflags]; rfl, by rw [hflags]; exact beq_iff_eq,
    by rw [hflags, aluRrc_keeps_v]⟩

/-! ## Five rotations of the 5-bit word -/

/-- C : v, the word that RRC rotates. -/
def carryWord (v : Nibble) (f : Flags) : BitVec 5 := BitVec.ofBool f.c ++ v

theorem carryWord_aluRrc (v : Nibble) (f : Flags) :
    carryWord (aluRrc v f).1 (aluRrc v f).2 = (carryWord v f).rotateRight 1 := by
  obtain ⟨c, z, o⟩ := f
  simp only [carryWord, aluRrc]
  revert v c
  decide

theorem carryWord_inj {v v' : Nibble} {f f' : Flags} (h : carryWord v f = carryWord v' f') : v = v' ∧ f.c = f'.c := by
  have hv := congrArg (BitVec.extractLsb' 0 4) h
  have hc := congrArg (BitVec.extractLsb' 4 1) h
  simp only [carryWord, BitVec.extractLsb'_append_eq_left, BitVec.extractLsb'_append_eq_right] at hv hc
  exact ⟨hv, BitVec.ofBool_eq_iff_eq.1 hc⟩

/-- RRC's rotation of the 5-bit word has order five. -/
theorem rotateRight_five_times (w : BitVec 5) : (BitVec.rotateRight · 1)^[5] w = w := by
  revert w; decide

/-- Of the registers only R11 can be the IN location. -/
theorem State.register_plain {s : State} {y : Reg} (hport : y = 11#4 → s.ioposSet) : ¬ s.inputCell (regAddr y) := by
  rintro (h | ⟨h, hclear⟩)
  · exact regAddr_ne (by simp; omega) h
  · exact hclear (hport (by_contra fun hne => regAddr_injective hne h))

/-- From `s` to `t` the word C : RY was rotated `n` times and every other cell kept; RY is no input cell in `t`. -/
structure Rotated (y : Reg) (n : Nat) (s t : State) : Prop where
  word : carryWord (t.cell (regAddr y)) t.flags =
    (BitVec.rotateRight · 1)^[n] (carryWord (s.cell (regAddr y)) s.flags)
  kept : ∀ b, b ≠ regAddr y → t.cell b = s.cell b
  plain : ¬ t.inputCell (regAddr y)

section
variable {y : Reg} {n : Nat} {s t : State}

/-- One more RRC is one more rotation. -/
theorem Rotated.rrc (h : Rotated y n s t) (h12 : y ≠ 12#4) (h13 : y ≠ 13#4) :
    ∃ u, exec (.rrc y) t = .next u ∧ Rotated y (n + 1) s u := by
  have hread := t.readReg_plain h.plain
  have hnext := exec_rrc_eq t h12 h13
  rw [hread] at hnext
  have hwrote := t.writeReg_wrote y (aluRrc (t.cell (regAddr y)) t.flags).1
  refine ⟨_, hnext, ?_, fun b hb => (hwrote.kept b hb).trans (h.kept b hb), mt (State.memWrite_inputCell _).1 h.plain⟩
  rw [State.cell_setFlags, hwrote.stored h.plain, State.setFlags_flags, carryWord_aluRrc, h.word,
    Function.iterate_succ_apply']

/-- After five rotations the word is the one at the start, so every cell and C are. -/
theorem Rotated.five_restore (h : Rotated y 5 s t) : (∀ a, t.cell a = s.cell a) ∧ t.flags.c = s.flags.c := by
  obtain ⟨hregister, hcarry⟩ := carryWord_inj (h.word.trans (rotateRight_five_times _))
  refine ⟨fun a => ?_, hcarry⟩
  by_cases ha : a = regAddr y
  · rw [ha, hregister]
  · exact h.kept a ha

end

/-- Settles O42: five times `Rotated.rrc`. -/
theorem fiveRotationsRestore : Obligations.FiveRotationsRestore := by
  intro y s h12 h13 hport
  have hstart : Rotated y 0 s s := ⟨rfl, fun _ _ => rfl, State.register_plain hport⟩
  obtain ⟨t1, hexec1, h1⟩ := hstart.rrc h12 h13
  obtain ⟨t2, hexec2, h2⟩ := h1.rrc h12 h13
  obtain ⟨t3, hexec3, h3⟩ := h2.rrc h12 h13
  obtain ⟨t4, hexec4, h4⟩ := h3.rrc h12 h13
  obtain ⟨t5, hexec5, h5⟩ := h4.rrc h12 h13
  exact ⟨t1, t2, t3, t4, t5, hexec1, hexec2, hexec3, hexec4, hexec5, h5.five_restore⟩

end Sys2Proof.Machine
end

section
/-!
PROOFS. The instructions of 45_ret_skip.md: RET as a write of R0 and a pop the write does not reach (R211), and SKIP, which
moves PC alone and by its condition alone (R212).
-/
namespace Sys2Proof.Machine

/-! ## RET R0,N (R211) -/

theorem exec_ret_refused (n : Nibble) {s : State} (h : s.sp = 0#3) : exec (.ret n) s = .refused .stackUnderflow :=
  if_pos h

/-- The pop moves SP and PC, so the write is all that RET does to the cells. -/
theorem State.writeReg_pop_wrote (s : State) (r : Reg) (n : Nibble) : WroteCell s (regAddr r) n (s.writeReg r n).pop :=
  (s.writeReg_wrote r n).congr_right (State.pop_cell _) (State.pop_prog _)

/-- Settles O27: the entry SP - 1 of the state before the write is the one popped. -/
theorem returnPopsTheEntry : Obligations.ReturnPopsTheEntry := by
  intro n s
  refine ⟨decode_encode (i := .ret n) rfl, exec_ret_refused n, fun hsp => ?_⟩
  refine ⟨_, exec_ret n hsp, s.writeReg_pop_wrote r0 n, ?_, ?_, ?_⟩
  · rw [State.pop_flags, State.writeReg_flags]
  · rw [State.pop_sp, State.writeReg_sp, sp_pred hsp]
  · rw [State.writeReg_pop_pc, State.stackEntry_eq, sp_pred hsp]

/-! ## SKIP F,M (R212) -/

theorem exec_skip_holds {f : SkipCond} (count : Nat) {s : State} (h : condHolds f s.flags = true) :
    exec (.skip f count) s = .next (s.setPc (BitVec.ofNat 12 ((s.pc.toNat + count) % 4096))) := by
  rw [exec_skip, if_pos h]
  rfl

theorem exec_skip_fails {f : SkipCond} (count : Nat) {s : State} (h : ¬ condHolds f s.flags = true) :
    exec (.skip f count) s = .next s := by
  rw [exec_skip, if_neg h]

/-- Settles O28: the model's condition is the one the statement spells out per code, and either outcome is one state. -/
theorem skipStepsOverWords : Obligations.SkipStepsOverWords := by
  intro f count s holds
  have hcond : condHolds f s.flags = true ↔ holds := by
    cases f with
    | c => exact Iff.rfl
    | nc => exact Iff.of_eq (Bool.not_eq_true' _)
    | z => exact Iff.rfl
    | nz => exact Iff.of_eq (Bool.not_eq_true' _)
  by_cases h : holds
  · refine ⟨_, exec_skip_holds count (hcond.2 h), ⟨State.cell_setPc s _, rfl⟩, rfl, rfl, fun _ => ?_, absurd h⟩
    rw [State.setPc_pc, BitVec.toNat_ofNat, Nat.mod_mod]
  · exact ⟨s, exec_skip_fails count (mt hcond.1 h), ⟨fun _ => rfl, rfl⟩, rfl, rfl, (absurd · h), fun _ => rfl⟩

end Sys2Proof.Machine
end

section
/-!
PROOFS. The statements of 60_exceptions.md: exactly which forms are refused and by which name (R242), and the word the
host loads from outside (R244).
-/
namespace Sys2Proof.Machine

/-! ## The load from outside (R244) -/

/-- Settles O6: the word loaded is listed at PC, and the load moves PC nowhere. -/
theorem loadedWordIsRunNext : Obligations.LoadedWordIsRunNext := by
  intro s nbits w _
  have hfetch : (s.withFetchWord nbits w).fetch = BitVec.ofNat 12 w :=
    State.fetch_listed (Memory.read?_write_same s.prog s.pc.toNat (BitVec.ofNat 12 w))
  rw [step_eq, hfetch]
  rfl

/-! ## Answers that are a refusal (R242)

What each shared shape refuses, as an equivalence: the `→` of each is that it refuses nothing else. -/

section
variable {s : State} {r : Refusal}

theorem next_eq_refused_iff {t : State} : (.next t : Result) = .refused r ↔ False := ⟨nofun, nofun⟩

theorem refused_eq_refused_iff {e : Refusal} : (.refused e : Result) = .refused r ↔ r = e :=
  ⟨fun h => by cases h; rfl, fun h => by rw [h]⟩

/-- A guard before a next state refuses where it holds, by its own name. -/
theorem guard_eq_refused_iff {p : Prop} [Decidable p] {e : Refusal} {t : State} :
    (if p then (.refused e : Result) else .next t) = .refused r ↔ p ∧ r = e := by
  by_cases hp : p
  · rw [if_pos hp, refused_eq_refused_iff, and_iff_right hp]
  · rw [if_neg hp, next_eq_refused_iff, iff_false_intro hp, false_and]

/-- R12 and R13 are refused as a destination of the forms without the call and jump note (R156). -/
theorem triggerGuard_eq_refused_iff {x : Reg} {t : State} :
    (if isTriggerReg x then (.refused .triggerOther : Result) else .next t) = .refused r ↔
      (x = 12#4 ∨ x = 13#4) ∧ r = .triggerOther := by
  rw [guard_eq_refused_iff, isTriggerReg_iff]

theorem execRR_eq_refused_iff {alu : Nibble → Nibble → Flags → Nibble × Flags} {x y : Reg} :
    execRR alu x y s = .refused r ↔ (x = 12#4 ∨ x = 13#4) ∧ r = .triggerOther :=
  triggerGuard_eq_refused_iff

/-- Of the three ways of the trigger write only the call has a bound (R155). -/
theorem State.writeTrigger_eq_refused_iff {x : Reg} {v : Nibble} :
    s.writeTrigger x v = .refused r ↔ x = 12#4 ∧ 5 ≤ s.sp.toNat ∧ r = .stackOverflow := by
  by_cases h13 : x = 13#4
  · subst h13
    rw [State.writeTrigger_jump, next_eq_refused_iff]
    simp
  by_cases h12 : x = 12#4
  · subst h12
    rw [State.writeTrigger, if_neg h13, if_pos rfl, guard_eq_refused_iff, stackDepth_le_iff, and_iff_right rfl]
  · rw [State.writeTrigger_plain s v h12 h13, next_eq_refused_iff, iff_false_intro h12, false_and]

theorem execUnaryTrigger_eq_refused_iff {alu : Nibble → Flags → Nibble × Flags} {y : Reg} :
    execUnaryTrigger alu y s = .refused r ↔ y = 12#4 ∧ 5 ≤ s.sp.toNat ∧ r = .stackOverflow := by
  rw [execUnaryTrigger, State.writeTrigger_eq_refused_iff, State.setFlags_sp, State.readReg_sp]

/-! ## Explicit accesses that are refused (R58, R62, R156) -/

variable {a : Addr}

/-- The trigger cells lie outside page 15, so the two reasons for refusing a store exclude each other. -/
theorem explicitWriteRefusal_eq_some_iff : explicitWriteRefusal a = some r ↔
    ((a = 0x0C#8 ∨ a = 0x0D#8) ∧ r = .triggerOther) ∨ (undocumentedAddr a ∧ r = .sfrNotInSource) := by
  by_cases htrigger : a = 0x0C#8 ∨ a = 0x0D#8
  · have hdoc : ¬ undocumentedAddr a := by rcases htrigger with rfl | rfl <;> decide
    rw [explicitWriteRefusal_trigger htrigger, Option.some_inj, and_iff_right htrigger, iff_false_intro hdoc,
      false_and, or_false, eq_comm]
  by_cases hundoc : undocumentedAddr a
  · rw [explicitWriteRefusal_undocumented hundoc, Option.some_inj, and_iff_right hundoc, iff_false_intro htrigger,
      false_and, false_or, eq_comm]
  · obtain ⟨hC, hD⟩ := not_or.1 htrigger
    rw [explicitWriteRefusal_none hundoc hC hD]
    simp only [reduceCtorEq, htrigger, hundoc, false_and, or_false]

/-- WRFLAGS is documented, so the two reasons for refusing a load exclude each other. -/
theorem explicitReadRefusal_eq_some_iff : explicitReadRefusal a = some r ↔
    (a = 0xF3#8 ∧ r = .wrflagsRead) ∨ (undocumentedAddr a ∧ r = .sfrNotInSource) := by
  by_cases hF3 : a = 0xF3#8
  · subst hF3
    have hdoc : ¬ undocumentedAddr 0xF3#8 := by decide
    rw [explicitReadRefusal_wrflags, Option.some_inj, and_iff_right rfl, iff_false_intro hdoc, false_and, or_false,
      eq_comm]
  by_cases hundoc : undocumentedAddr a
  · rw [explicitReadRefusal_undocumented hundoc, Option.some_inj, and_iff_right hundoc, iff_false_intro hF3,
      false_and, false_or, eq_comm]
  · rw [explicitReadRefusal_none hundoc hF3]
    simp only [reduceCtorEq, hF3, hundoc, false_and, or_false]

theorem State.explicitWrite_eq_refused_iff {v : Nibble} :
    s.explicitWrite a v = .refused r ↔
      ((a = 0x0C#8 ∨ a = 0x0D#8) ∧ r = .triggerOther) ∨ (undocumentedAddr a ∧ r = .sfrNotInSource) := by
  rw [← explicitWriteRefusal_eq_some_iff]
  cases h : explicitWriteRefusal a with
  | none => rw [State.explicitWrite_next v h, next_eq_refused_iff]; simp only [reduceCtorEq]
  | some e => rw [State.explicitWrite_refused v h, refused_eq_refused_iff, Option.some_inj, eq_comm]

/-- The write of R0 that ends a load is never refused, so a load is refused as its read is. -/
theorem State.explicitRead_loadR0_eq_refused_iff :
    s.explicitRead a State.loadR0 = .refused r ↔
      (a = 0xF3#8 ∧ r = .wrflagsRead) ∨ (undocumentedAddr a ∧ r = .sfrNotInSource) := by
  rw [← explicitReadRefusal_eq_some_iff]
  cases h : explicitReadRefusal a with
  | none => rw [State.explicitRead_next _ h, State.loadR0, next_eq_refused_iff]; simp only [reduceCtorEq]
  | some e => rw [State.explicitRead_refused _ h, refused_eq_refused_iff, Option.some_inj, eq_comm]

end

/-! ## The refused forms (R242) -/

/-- Settles O43, case by case on the instruction: each is refused as the shape it is built from is, and an instruction
with no guard never. -/
theorem refusedFormsAreExactlyTheListed : Obligations.RefusedFormsAreExactlyTheListed := by
  intro i s r
  cases i with
  | addXY x y | adcXY x y | subXY x y | sbbXY x y | orXY x y | andXY x y | xorXY x y => exact execRR_eq_refused_iff
  | dsz y | rrc y => exact triggerGuard_eq_refused_iff
  | exr n | ret n => exact guard_eq_refused_iff
  | movXY x y => rw [exec_movXY, State.writeTrigger_eq_refused_iff, State.readReg_sp]
  | movXN x n => exact State.writeTrigger_eq_refused_iff
  | inc y | dec y => exact execUnaryTrigger_eq_refused_iff
  | storeXY x y => rw [exec_storeXY]; exact State.explicitWrite_eq_refused_iff
  | storeNN nn => rw [exec_storeNN]; exact State.explicitWrite_eq_refused_iff
  | loadXY x y | loadNN nn => exact State.explicitRead_loadR0_eq_refused_iff
  | movPC nn | jr nn | cpN n | addN n | orN n | andN n | xorN n | bit g m | bset g m | bclr g m | btg g m | skip f n =>
    exact next_eq_refused_iff

end Sys2Proof.Machine
end

section
/-!
PROOFS. The statements of 70_reset_and_hazards.md: the terminal word `JR -1` (R270), and what the state after reset holds
(R260, R261, R264).
-/
namespace Sys2Proof.Machine

/-! ## The terminal word (R270) -/

/-- The terminal word is the encoding of `JR -1`. -/
theorem decode_terminal : decode 0xFFF#12 = .jr 0xFF#8 := decode_encode (i := .jr 0xFF#8) rfl

/-- `JR -1` takes back the increment of the fetch, on the ring: at address 0xFFF too (R151). -/
theorem add_one_add_jrOffset_minus_one (p : ProgAddr) : p + 1#12 + jrOffset 0xFF#8 = p :=
  calc p + 1#12 + jrOffset 0xFF#8
      = p + (1#12 + jrOffset 0xFF#8) := BitVec.add_assoc p 1#12 (jrOffset 0xFF#8)
    _ = p + 0#12 := congrArg (p + ·) (by decide)
    _ = p := BitVec.add_zero p

/-- Settles O7: the fetch and JR change PC alone, and between them leave it where it was. -/
theorem terminalStateRepeatsForever : Obligations.TerminalStateRepeatsForever := by
  intro s hfetch
  calc step s
      = exec (.jr 0xFF#8) s.advance := by rw [step_eq, hfetch, decode_terminal]
    _ = .next (s.setPc (s.pc + 1#12 + jrOffset 0xFF#8)) := exec_jr 0xFF#8 s.advance
    _ = .next s := by rw [add_one_add_jrOffset_minus_one]; rfl

/-! ## The state after reset (R260 to R264) -/

/-- The registers are listed with rising addresses, WRFLAGS and the ports of page 15 last (log 1, 2). -/
theorem resetRegisters_wf : resetRegisters.wf 256 = true := by decide

/-- Settles O53: reset lists no word of program memory, and SP 0 is a level of the stack. -/
theorem resetMeetsTheInvariant : Obligations.ResetMeetsTheInvariant := by
  have hprog : State.reset.prog.wf 4096 = true := rfl
  have hsp : State.reset.sp ≤ 5#3 := by decide
  exact ⟨resetRegisters_wf, hprog, hsp⟩

/-- Settles O54: the three fields as reset sets them, PC by RESET_PC at its default. -/
theorem resetStartsAtLevelZero : Obligations.ResetStartsAtLevelZero := by
  have hpc : State.reset.pc = Config.resetPc := rfl
  exact ⟨hpc, rfl, rfl⟩

end Sys2Proof.Machine
end
